-- ==== Sys2Proof/Word.lean ====
section
/-! DEFINITION. The word types of the machine (R7, R20, R26, R32): plain bit strings, bit 0 the least significant. -/

namespace Sys2Proof

/-- The unit of memory and of instruction encoding (R32, R80). -/
abbrev Byte := BitVec 8

/-- A general register, the program counter or a virtual address (R26, R27, R32). -/
abbrev Word := BitVec 64

/-- One 32-bit element of a vector (R10). -/
abbrev Lane := BitVec 32

/-- The cell that holds one vector register: 512 bits, of which the low MAXVL exist (R20). -/
abbrev VReg := BitVec 512

end Sys2Proof
end

