-- ==== Sys2Proof/Syntax/Fields.lean ====
section
/-! DEFINITION. The fields an instruction's encoding is made of: prefixes, ModRM operand, SIB, displacement, and one
record of fields for each of the four spellings (legacy, two-byte VEX, three-byte VEX, EVEX). Every bit that a decoder
accepts and that is not fixed is kept, so that the bytes of an instruction can be written out again from it. Bits the
encoding stores complemented (R89, R90, R93) are held here un-complemented. -/

namespace Sys2Proof

/-- The segment registers a prefix can name (R86). -/
inductive Seg where
  | cs | ss | ds | es | fs | gs
  deriving DecidableEq, Repr

/-- The bytes that can stand before the opcode or the VEX or EVEX prefix (R86, R88). -/
inductive Prefix where
  /-- 2E, 36, 3E, 26, 64, 65 -/
  | seg (s : Seg)
  /-- 67: 32-bit address formation -/
  | addrSize
  /-- 66 -/
  | opSize
  /-- F2 -/
  | repne
  /-- F3 -/
  | rep
  /-- F0 -/
  | lock
  /-- 40 to 4F: the low four bits are W, R, X, B -/
  | rex (wrxb : BitVec 4)
  deriving DecidableEq, Repr

/-- A displacement as it is encoded (R100). -/
inductive Disp where
  | absent
  | d8 (d : BitVec 8)
  | d32 (d : BitVec 32)
  deriving DecidableEq, Repr

/-- The memory alternatives of ModRM and SIB (R82, R98, R99), before the register-extension bits are joined on. -/
inductive AddrForm where
  /-- r/m other than 100b: a base register and no SIB byte -/
  | base (n : BitVec 3) (d : Disp)
  /-- mod = 00b, r/m = 101b: relative to the address of the next instruction -/
  | ripRel (d : BitVec 32)
  /-- r/m = 100b: a SIB byte with a base register -/
  | sib (scale : BitVec 2) (index : BitVec 3) (base : BitVec 3) (d : Disp)
  /-- r/m = 100b, mod = 00b, base = 101b: a SIB byte without a base register -/
  | sibAbs (scale : BitVec 2) (index : BitVec 3) (d : BitVec 32)
  deriving DecidableEq, Repr

/-- The `ModRM:r/m` operand: a register when mod = 11b, else memory (R82). -/
inductive RM where
  | reg (n : BitVec 3)
  | mem (a : AddrForm)
  deriving DecidableEq, Repr

/-- `[prefixes] [REX] 0F 57 ModRM [SIB] [disp]` (R80, R86, R88). A REX byte immediately before the 0F is the last
prefix of the list; a REX byte anywhere else in it is one the machine ignores. -/
structure Legacy where
  pre : List Prefix
  reg : BitVec 3
  rm  : RM
  deriving DecidableEq, Repr

/-- `[prefixes] C5 v1 57 ModRM [SIB] [disp]` (R80, R89). -/
structure Vex2 where
  pre  : List Prefix
  r    : Bool
  vvvv : BitVec 4
  reg  : BitVec 3
  rm   : RM
  deriving DecidableEq, Repr

/-- `[prefixes] C4 v1 v2 57 ModRM [SIB] [disp]` (R80, R90). -/
structure Vex3 where
  pre  : List Prefix
  r    : Bool
  x    : Bool
  b    : Bool
  w    : Bool
  vvvv : BitVec 4
  reg  : BitVec 3
  rm   : RM
  deriving DecidableEq, Repr

/-- `[prefixes] 62 P0 P1 P2 57 ModRM [SIB] [disp]` (R80, R93); `r2`, `v2` are R' and V', `bc` is EVEX.b. -/
structure Evex where
  pre  : List Prefix
  r    : Bool
  x    : Bool
  b    : Bool
  r2   : Bool
  vvvv : BitVec 4
  v2   : Bool
  z    : Bool
  bc   : Bool
  aaa  : BitVec 3
  reg  : BitVec 3
  rm   : RM
  deriving DecidableEq, Repr

end Sys2Proof
end

