-- ==== Sys2Proof/Syntax.lean ====
section
/-! DEFINITION. The instructions: one constructor for each of the eight rows of spec/opcode_table.json (R109), each
holding the fields of its spelling. The vector length L or L'L, the opcode, the map, pp and the fixed bits are what the
constructor stands for. -/

namespace Sys2Proof

inductive Instr where
  /-- row XORPS: form 1, `NP 0F 57 /r` (R131) -/
  | xorps (e : Legacy)
  /-- row VXORPS.VEX128.C5: form 2 in the two-byte spelling (R140) -/
  | vxorpsVex128C5 (e : Vex2)
  /-- row VXORPS.VEX128.C4: form 2 in the three-byte spelling (R140) -/
  | vxorpsVex128C4 (e : Vex3)
  /-- row VXORPS.VEX256.C5: form 3 in the two-byte spelling (R141) -/
  | vxorpsVex256C5 (e : Vex2)
  /-- row VXORPS.VEX256.C4: form 3 in the three-byte spelling (R141) -/
  | vxorpsVex256C4 (e : Vex3)
  /-- row VXORPS.EVEX128: form 4 (R151) -/
  | vxorpsEvex128 (e : Evex)
  /-- row VXORPS.EVEX256: form 5 (R152) -/
  | vxorpsEvex256 (e : Evex)
  /-- row VXORPS.EVEX512: form 6 (R153) -/
  | vxorpsEvex512 (e : Evex)
  deriving DecidableEq, Repr

end Sys2Proof
end

