-- ==== Sys2Proof/Decode.lean ====
section
/-! DEFINITION. Instruction encoding in 64-bit mode (30_encoding.md): the decoder, total on any bytes and rejecting by
name, then the length of an instruction, the encoder, the rows of the opcode table and `decodeTableWord`. -/

namespace Sys2Proof

/-- Why bytes are not one of the eight rows. -/
inductive Reject where
  /-- a legacy prefix byte stands twice: refused (R86) -/
  | repeatedPrefix
  /-- two segment overrides: refused (R86) -/
  | twoSegments
  /-- 66, F2 or F3 before `0F 57`: refused, not XORPS (R87) -/
  | notXorps
  /-- pp other than 00b or a map other than 0F: refused, not VXORPS (R91, R94) -/
  | notVxorps
  /-- the opcode bytes are of no form: refused (R206) -/
  | notThisInstruction
  /-- field values or prefixes for which the model raises #UD (R92, R97) -/
  | invalidOpcode
  /-- more than 15 bytes: #GP(0) (R102) -/
  | tooLong
  /-- the bytes end before the instruction does -/
  | truncated
  deriving DecidableEq, Repr

/-! ## Prefixes -/

/-- The byte of a prefix (R86, R88). -/
def Prefix.toByte : Prefix → Byte
  | .seg .cs   => 0x2E
  | .seg .ss   => 0x36
  | .seg .ds   => 0x3E
  | .seg .es   => 0x26
  | .seg .fs   => 0x64
  | .seg .gs   => 0x65
  | .addrSize  => 0x67
  | .opSize    => 0x66
  | .repne     => 0xF2
  | .rep       => 0xF3
  | .lock      => 0xF0
  | .rex wrxb  => (4 : BitVec 4) ++ wrxb

/-- The prefix a byte is, if it is one (R86, R88). -/
def Prefix.ofByte (b : Byte) : Option Prefix :=
  if b = 0x2E then some (.seg .cs)
  else if b = 0x36 then some (.seg .ss)
  else if b = 0x3E then some (.seg .ds)
  else if b = 0x26 then some (.seg .es)
  else if b = 0x64 then some (.seg .fs)
  else if b = 0x65 then some (.seg .gs)
  else if b = 0x67 then some .addrSize
  else if b = 0x66 then some .opSize
  else if b = 0xF2 then some .repne
  else if b = 0xF3 then some .rep
  else if b = 0xF0 then some .lock
  else if b.extractLsb' 4 4 = 4 then some (.rex (b.extractLsb' 0 4))
  else none

/-- REX bytes: one that does not stand immediately before the opcode is ignored (R88). -/
def Prefix.isRex : Prefix → Bool
  | .rex _ => true
  | _      => false

/-- Segment overrides (R86). -/
def Prefix.isSeg : Prefix → Bool
  | .seg _ => true
  | _      => false

/-- The prefixes that make `0F 57` something other than XORPS (R87). -/
def Prefix.isMandatory : Prefix → Bool
  | .opSize => true
  | .repne  => true
  | .rep    => true
  | _       => false

/-- All that may stand before a VEX or EVEX prefix: segment overrides and 67 (R92, R97). -/
def Prefix.beforeVex : Prefix → Bool
  | .seg _    => true
  | .addrSize => true
  | _         => false

/-- The leading prefix bytes, and the bytes after them (R102, R110). -/
def scanPrefixes : List Byte → List Prefix × List Byte
  | [] => ([], [])
  | b :: bs =>
    match Prefix.ofByte b with
    | none   => ([], b :: bs)
    | some p => (p :: (scanPrefixes bs).1, (scanPrefixes bs).2)

/-- R86: a legacy prefix byte stands twice. REX bytes are not counted: R88 gives a REX byte followed by another prefix
its meaning, that it is ignored (notes/assumptions/19.md, 21.md). -/
def repeatsPrefix (pre : List Prefix) : Bool :=
  !decide ((pre.filter (fun p => !p.isRex)).Nodup)

/-- R86: two segment overrides. -/
def hasTwoSegments (pre : List Prefix) : Bool :=
  decide (1 < (pre.filter Prefix.isSeg).length)

/-! ## ModRM, SIB and displacement -/

/-- The ModRM byte (R82); the SIB byte has the same shape (R98). -/
def modrmByte (mod : BitVec 2) (reg rm : BitVec 3) : Byte := mod ++ reg ++ rm

/-- Bits 7:6 of a ModRM byte (mod, R82) or a SIB byte (scale, R98). -/
def modOf (b : Byte) : BitVec 2 := b.extractLsb' 6 2

/-- Bits 5:3 of a ModRM byte (reg, R82) or a SIB byte (index, R98). -/
def regOf (b : Byte) : BitVec 3 := b.extractLsb' 3 3

/-- Bits 2:0 of a ModRM byte (r/m, R82) or a SIB byte (base, R98). -/
def rmOf (b : Byte) : BitVec 3 := b.extractLsb' 0 3

/-- A 32-bit displacement, little-endian (R54, R100). -/
def parse32 : List Byte → Option (BitVec 32 × List Byte)
  | b0 :: b1 :: b2 :: b3 :: bs => some (b3 ++ b2 ++ b1 ++ b0, bs)
  | _ => none

/-- The displacement that a mod other than 11b calls for (R82, R99). -/
def parseDisp (mod : BitVec 2) (bs : List Byte) : Option (Disp × List Byte) :=
  if mod = 0 then some (.absent, bs)
  else if mod = 1 then
    match bs with
    | b :: rest => some (.d8 b, rest)
    | []        => none
  else
    match parse32 bs with
    | some (d, rest) => some (.d32 d, rest)
    | none           => none

/-- The memory alternative after the SIB byte's place is reached (R98, R99). -/
def parseSib (mod : BitVec 2) : List Byte → Option (AddrForm × List Byte)
  | [] => none
  | sib :: bs =>
    if rmOf sib = 5 ∧ mod = 0 then
      match parse32 bs with
      | some (d, rest) => some (.sibAbs (modOf sib) (regOf sib) d, rest)
      | none           => none
    else
      match parseDisp mod bs with
      | some (d, rest) => some (.sib (modOf sib) (regOf sib) (rmOf sib) d, rest)
      | none           => none

/-- The memory alternative that mod and r/m select (R82, R98, R99). -/
def parseMem (mod : BitVec 2) (rm : BitVec 3) (bs : List Byte) : Option (AddrForm × List Byte) :=
  if rm = 4 then parseSib mod bs
  else if rm = 5 ∧ mod = 0 then
    match parse32 bs with
    | some (d, rest) => some (.ripRel d, rest)
    | none           => none
  else
    match parseDisp mod bs with
    | some (d, rest) => some (.base rm d, rest)
    | none           => none

/-- ModRM and what it calls for: the reg field, the r/m operand and the bytes after them; none when the bytes end
first. -/
def parseRM : List Byte → Option (BitVec 3 × RM × List Byte)
  | [] => none
  | b :: bs =>
    if modOf b = 3 then some (regOf b, .reg (rmOf b), bs)
    else
      match parseMem (modOf b) (rmOf b) bs with
      | some (a, rest) => some (regOf b, .mem a, rest)
      | none           => none

/-! ## The decoder -/

/-- The legacy class, after the escape byte 0F (R80, R86, R87). -/
def decodeLegacy (pre : List Prefix) : List Byte → Except Reject (Instr × List Byte)
  | [] => .error .truncated
  | op :: bs =>
    if op ≠ 0x57 then .error .notThisInstruction
    else
      match parseRM bs with
      | none => .error .truncated
      | some (reg, rm, rest) =>
        if pre.any Prefix.isMandatory then .error .notXorps
        else .ok (.xorps ⟨pre, reg, rm⟩, rest)

/-- A VEX instruction with the required opcode but pp or a map of some other instruction: #UD where a prefix that must
not precede VEX or EVEX stands before it (R92, R97), else refused (R91, R94); notes/assumptions/22.md. -/
def otherVex (pre : List Prefix) : Reject :=
  if pre.all Prefix.beforeVex then .notVxorps else .invalidOpcode

/-- The two-byte VEX class, after C5 (R89, R91). -/
def decodeVex2 (pre : List Prefix) : List Byte → Except Reject (Instr × List Byte)
  | v1 :: op :: bs =>
    if op ≠ 0x57 then .error .notThisInstruction
    else
      match parseRM bs with
      | none => .error .truncated
      | some (reg, rm, rest) =>
        let e : Vex2 := ⟨pre, !v1.getLsbD 7, ~~~(v1.extractLsb' 3 4), reg, rm⟩
        if v1.extractLsb' 0 2 ≠ 0 then .error (otherVex pre)
        else if v1.getLsbD 2 then .ok (.vxorpsVex256C5 e, rest)
        else .ok (.vxorpsVex128C5 e, rest)
  | _ => .error .truncated

/-- The three-byte VEX class, after C4 (R90, R91). -/
def decodeVex3 (pre : List Prefix) : List Byte → Except Reject (Instr × List Byte)
  | v1 :: v2 :: op :: bs =>
    if op ≠ 0x57 then .error .notThisInstruction
    else
      match parseRM bs with
      | none => .error .truncated
      | some (reg, rm, rest) =>
        let e : Vex3 := ⟨pre, !v1.getLsbD 7, !v1.getLsbD 6, !v1.getLsbD 5, v2.getLsbD 7, ~~~(v2.extractLsb' 3 4), reg, rm⟩
        if v2.extractLsb' 0 2 ≠ 0 ∨ v1.extractLsb' 0 5 ≠ 1 then .error (otherVex pre)
        else if v2.getLsbD 2 then .ok (.vxorpsVex256C4 e, rest)
        else .ok (.vxorpsVex128C4 e, rest)
  | _ => .error .truncated

/-- The EVEX class, after 62 (R93, R94, R97). The fixed bits come first, since they belong to the prefix itself; then
what makes the bytes another instruction; then W and L'L. -/
def decodeEvex (pre : List Prefix) : List Byte → Except Reject (Instr × List Byte)
  | p0 :: p1 :: p2 :: op :: bs =>
    if op ≠ 0x57 then .error .notThisInstruction
    else
      match parseRM bs with
      | none => .error .truncated
      | some (reg, rm, rest) =>
        let e : Evex := ⟨pre, !p0.getLsbD 7, !p0.getLsbD 6, !p0.getLsbD 5, !p0.getLsbD 4, ~~~(p1.extractLsb' 3 4),
          !p2.getLsbD 3, p2.getLsbD 7, p2.getLsbD 4, p2.extractLsb' 0 3, reg, rm⟩
        if p0.getLsbD 3 = true ∨ p1.getLsbD 2 = false then .error .invalidOpcode
        else if p1.extractLsb' 0 2 ≠ 0 ∨ p0.extractLsb' 0 3 ≠ 1 then .error (otherVex pre)
        else if p1.getLsbD 7 then .error .invalidOpcode
        else if p2.extractLsb' 5 2 = 0 then .ok (.vxorpsEvex128 e, rest)
        else if p2.extractLsb' 5 2 = 1 then .ok (.vxorpsEvex256 e, rest)
        else if p2.extractLsb' 5 2 = 2 then .ok (.vxorpsEvex512 e, rest)
        else .error .invalidOpcode
  | _ => .error .truncated

/-- Telling the classes apart, after the prefixes (R110). -/
def decodeClass (pre : List Prefix) : List Byte → Except Reject (Instr × List Byte)
  | [] => .error .truncated
  | b :: bs =>
    if b = 0x0F then decodeLegacy pre bs
    else if b = 0xC5 then decodeVex2 pre bs
    else if b = 0xC4 then decodeVex3 pre bs
    else if b = 0x62 then decodeEvex pre bs
    else .error .notThisInstruction

/-! ## Length -/

/-- The bytes of a displacement (R102). -/
def Disp.len : Disp → Nat
  | .absent => 0
  | .d8 _   => 1
  | .d32 _  => 4

/-- The bytes of a memory operand after ModRM (R102). -/
def AddrForm.len : AddrForm → Nat
  | .base _ d     => d.len
  | .ripRel _     => 4
  | .sib _ _ _ d  => 1 + d.len
  | .sibAbs _ _ _ => 1 + 4

/-- ModRM, SIB and displacement (R102). -/
def RM.len : RM → Nat
  | .reg _ => 1
  | .mem a => 1 + a.len

/-- R102: prefixes, REX among them, two opcode bytes, then ModRM and what it calls for. -/
def Legacy.len (e : Legacy) : Nat := e.pre.length + 2 + e.rm.len

/-- R102: a two-byte VEX prefix and one opcode byte. -/
def Vex2.len (e : Vex2) : Nat := e.pre.length + 3 + e.rm.len

/-- R102: a three-byte VEX prefix and one opcode byte. -/
def Vex3.len (e : Vex3) : Nat := e.pre.length + 4 + e.rm.len

/-- R102: a four-byte EVEX prefix and one opcode byte. -/
def Evex.len (e : Evex) : Nat := e.pre.length + 5 + e.rm.len

/-- `len`, the number of bytes of an instruction (R12, R102). -/
def Instr.len : Instr → Nat
  | .xorps e          => e.len
  | .vxorpsVex128C5 e => e.len
  | .vxorpsVex128C4 e => e.len
  | .vxorpsVex256C5 e => e.len
  | .vxorpsVex256C4 e => e.len
  | .vxorpsEvex128 e  => e.len
  | .vxorpsEvex256 e  => e.len
  | .vxorpsEvex512 e  => e.len

/-- The longest an instruction may be (R102). -/
def maxLen : Nat := 15

/-- The instruction that bytes begin with and the bytes after it, or why there is none (R80, R86, R102, R110). The refusals of R86
come first, also where the bytes end or are too many before the instruction does. DEDUCED, notes/assumptions/21.md -/
def decode (bs : List Byte) : Except Reject (Instr × List Byte) :=
  if repeatsPrefix (scanPrefixes bs).1 then .error .repeatedPrefix
  else if hasTwoSegments (scanPrefixes bs).1 then .error .twoSegments
  else
    match decodeClass (scanPrefixes bs).1 (scanPrefixes bs).2 with
    | .error r       => .error r
    | .ok (i, rest)  => if i.len ≤ maxLen then .ok (i, rest) else .error .tooLong

/-! ## The encoder -/

/-- A 32-bit displacement as bytes, little-endian (R54, R100). -/
def bytes32 (d : BitVec 32) : List Byte :=
  [d.extractLsb' 0 8, d.extractLsb' 8 8, d.extractLsb' 16 8, d.extractLsb' 24 8]

/-- The mod that a displacement calls for (R82). -/
def Disp.mod : Disp → BitVec 2
  | .absent => 0
  | .d8 _   => 1
  | .d32 _  => 2

/-- The bytes of a displacement (R100). -/
def Disp.bytes : Disp → List Byte
  | .absent => []
  | .d8 d   => [d]
  | .d32 d  => bytes32 d

/-- ModRM, SIB and displacement of an operand pair (R82, R98, R100). -/
def RM.bytes (reg : BitVec 3) : RM → List Byte
  | .reg n                    => [modrmByte 3 reg n]
  | .mem (.base n d)          => modrmByte d.mod reg n :: d.bytes
  | .mem (.ripRel d)          => modrmByte 0 reg 5 :: bytes32 d
  | .mem (.sib sc ix bs d)    => modrmByte d.mod reg 4 :: modrmByte sc ix bs :: d.bytes
  | .mem (.sibAbs sc ix d)    => modrmByte 0 reg 4 :: modrmByte sc ix 5 :: bytes32 d

/-- One bit of an encoded byte. -/
def bit1 (b : Bool) : BitVec 1 := BitVec.ofBool b

/-- R80, R86: form 1. -/
def Legacy.bytes (e : Legacy) : List Byte :=
  e.pre.map Prefix.toByte ++ 0x0F :: 0x57 :: e.rm.bytes e.reg

/-- R89, R91: forms 2 (`l` = 0) and 3 (`l` = 1), two-byte spelling. -/
def Vex2.bytes (l : Bool) (e : Vex2) : List Byte :=
  e.pre.map Prefix.toByte ++ 0xC5 :: (bit1 (!e.r) ++ ~~~e.vvvv ++ bit1 l ++ (0 : BitVec 2)) :: 0x57 :: e.rm.bytes e.reg

/-- R90, R91: forms 2 (`l` = 0) and 3 (`l` = 1), three-byte spelling. -/
def Vex3.bytes (l : Bool) (e : Vex3) : List Byte :=
  e.pre.map Prefix.toByte ++ 0xC4 :: (bit1 (!e.r) ++ bit1 (!e.x) ++ bit1 (!e.b) ++ (1 : BitVec 5))
    :: (bit1 e.w ++ ~~~e.vvvv ++ bit1 l ++ (0 : BitVec 2)) :: 0x57 :: e.rm.bytes e.reg

/-- R93, R94: forms 4, 5, 6, by `L'L`. -/
def Evex.bytes (ll : BitVec 2) (e : Evex) : List Byte :=
  e.pre.map Prefix.toByte ++ 0x62
    :: (bit1 (!e.r) ++ bit1 (!e.x) ++ bit1 (!e.b) ++ bit1 (!e.r2) ++ (1 : BitVec 4))
    :: (bit1 false ++ ~~~e.vvvv ++ (4 : BitVec 3))
    :: (bit1 e.z ++ ll ++ bit1 e.bc ++ bit1 (!e.v2) ++ e.aaa) :: 0x57 :: e.rm.bytes e.reg

/-- The bytes of an instruction, in increasing address order (R80, R109). -/
def encode : Instr → List Byte
  | .xorps e          => e.bytes
  | .vxorpsVex128C5 e => e.bytes false
  | .vxorpsVex128C4 e => e.bytes false
  | .vxorpsVex256C5 e => e.bytes true
  | .vxorpsVex256C4 e => e.bytes true
  | .vxorpsEvex128 e  => e.bytes 0
  | .vxorpsEvex256 e  => e.bytes 1
  | .vxorpsEvex512 e  => e.bytes 2

/-! ## The opcode table -/

/-- A row of spec/opcode_table.json: a byte string s matches when `(s AND mask) = match` (R109), compared from the
first byte of the VEX or EVEX prefix, or from the 0F escape, through ModRM. -/
structure OpcodeRow where
  mnemonic : String
  pattern  : List Byte
  mask     : List Byte
  deriving DecidableEq, Repr

/-- The eight rows, with the table's own match and mask. -/
def opcodeRows : List OpcodeRow :=
  [⟨"XORPS", [0x0F, 0x57, 0x00], [0xFF, 0xFF, 0x00]⟩,
   ⟨"VXORPS.VEX128.C5", [0xC5, 0x00, 0x57, 0x00], [0xFF, 0x07, 0xFF, 0x00]⟩,
   ⟨"VXORPS.VEX128.C4", [0xC4, 0x01, 0x00, 0x57, 0x00], [0xFF, 0x1F, 0x07, 0xFF, 0x00]⟩,
   ⟨"VXORPS.VEX256.C5", [0xC5, 0x04, 0x57, 0x00], [0xFF, 0x07, 0xFF, 0x00]⟩,
   ⟨"VXORPS.VEX256.C4", [0xC4, 0x01, 0x04, 0x57, 0x00], [0xFF, 0x1F, 0x07, 0xFF, 0x00]⟩,
   ⟨"VXORPS.EVEX128", [0x62, 0x01, 0x04, 0x00, 0x57, 0x00], [0xFF, 0x0F, 0x87, 0x60, 0xFF, 0x00]⟩,
   ⟨"VXORPS.EVEX256", [0x62, 0x01, 0x04, 0x20, 0x57, 0x00], [0xFF, 0x0F, 0x87, 0x60, 0xFF, 0x00]⟩,
   ⟨"VXORPS.EVEX512", [0x62, 0x01, 0x04, 0x40, 0x57, 0x00], [0xFF, 0x0F, 0x87, 0x60, 0xFF, 0x00]⟩]

/-- `(s AND mask) = match`, byte by byte over the row's length (R109). -/
def matchesMask : List Byte → List Byte → List Byte → Bool
  | [], [], _ => true
  | p :: ps, m :: ms, b :: bs => (b &&& m) == p && matchesMask ps ms bs
  | _, _, _ => false

/-- A row matches the bytes that stand after the prefixes (R109). -/
def OpcodeRow.matchesBytes (r : OpcodeRow) (bs : List Byte) : Bool :=
  matchesMask r.pattern r.mask (scanPrefixes bs).2

/-- The row an instruction belongs to (R109). -/
def Instr.mnemonic : Instr → String
  | .xorps _          => "XORPS"
  | .vxorpsVex128C5 _ => "VXORPS.VEX128.C5"
  | .vxorpsVex128C4 _ => "VXORPS.VEX128.C4"
  | .vxorpsVex256C5 _ => "VXORPS.VEX256.C5"
  | .vxorpsVex256C4 _ => "VXORPS.VEX256.C4"
  | .vxorpsEvex128 _  => "VXORPS.EVEX128"
  | .vxorpsEvex256 _  => "VXORPS.EVEX256"
  | .vxorpsEvex512 _  => "VXORPS.EVEX512"

/-! ## Words as the table numbers them -/

/-- Byte `j` of a number, bits 8j+7:8j. -/
def byteAt (w j : Nat) : Byte := BitVec.ofNat 8 (w >>> (8 * j))

/-- The bytes of a table word with the first byte in the most significant place, as the table numbers its bits
(98_reader.md; notes/assumptions/26.md). -/
def bytesFirstHigh (n w : Nat) : List Byte := (List.range n).map (fun j => byteAt w (n - 1 - j))

/-- The bytes of a word with the first byte in the least significant place. -/
def bytesFirstLow (n w : Nat) : List Byte := (List.range n).map (byteAt w)

/-- Zeros after the given bytes, to the longest instruction. -/
def padded (bs : List Byte) : List Byte := bs ++ List.replicate (maxLen - bs.length) 0

/-- The bytes of a table word, zeros after them: in the table's numbering where they decode so, else with the first
byte lowest (notes/assumptions/26.md). -/
def tableBytes (nbits w : Nat) : List Byte :=
  match decode (padded (bytesFirstHigh ((nbits + 7) / 8) w)) with
  | .ok _    => padded (bytesFirstHigh ((nbits + 7) / 8) w)
  | .error _ => padded (bytesFirstLow ((nbits + 7) / 8) w)

/-- The instruction that a table word decodes to. -/
def decodeTableWord (nbits w : Nat) : Option Instr :=
  match decode (tableBytes nbits w) with
  | .ok (i, _) => some i
  | .error _   => none

end Sys2Proof
end

