-- ==== Sys2Proof/Config.lean ====
section
/-! DEFINITION. What an implementation fixes (R6, R34, R56), as plain data that State carries and no step writes, and
the free values: constants with no body, about which nothing can be proved. -/

namespace Sys2Proof

/-- The six forms of R2, in the order of its table. -/
inductive Form where
  | sse | vex128 | vex256 | evex128 | evex256 | evex512
  deriving DecidableEq, Repr

/-- `VL`, the vector length in bits (R10). -/
def Form.vl : Form → Nat
  | .sse => 128
  | .vex128 => 128
  | .vex256 => 256
  | .evex128 => 128
  | .evex256 => 256
  | .evex512 => 512

/-- `KL`, the number of 32-bit elements (R10). -/
def Form.kl (f : Form) : Nat := f.vl / 32

/-- `MAXVL` (R6). -/
inductive MaxVl where
  | w128 | w256 | w512
  deriving DecidableEq, Repr

/-- The width of a vector register in bits. -/
def MaxVl.bits : MaxVl → Nat
  | .w128 => 128
  | .w256 => 256
  | .w512 => 512

/-- `KW`, the width of an opmask register (R6, R24). -/
inductive KWidth where
  | w16 | w64
  deriving DecidableEq, Repr

/-- The width of an opmask register in bits. -/
def KWidth.bits : KWidth → Nat
  | .w16 => 16
  | .w64 => 64

/-- `VA`, the implemented virtual-address bits (R6). -/
inductive VaWidth where
  | w48 | w57
  deriving DecidableEq, Repr

/-- The number of implemented virtual-address bits. -/
def VaWidth.bits : VaWidth → Nat
  | .w48 => 48
  | .w57 => 57

/-- The CPUID feature flags that read 1 (R6, R31). -/
structure Features where
  sse      : Bool
  avx      : Bool
  avx512f  : Bool
  avx512vl : Bool
  avx512dq : Bool
  deriving DecidableEq, Repr

/-- One range of addresses at which `ac_check` answers true for reads of `read` bytes by a form (R50, R56). -/
structure AcEntry where
  form : Form
  read : Nat
  base : Nat
  size : Nat
  deriving DecidableEq, Repr

/-- The configuration of R6 and the open parameters of R35 and R56. -/
structure Config where
  maxvl     : MaxVl
  features  : Features
  kw        : KWidth
  va        : VaWidth
  /-- `ac_check` of R56: true at the listed ranges, false elsewhere. DESIGN CHOICE, notes/assumptions/9.md -/
  acCheck   : List AcEntry
  /-- the processor signature RDX holds after reset (R35), which gives neither its value nor its width. DESIGN CHOICE: the
  signature is as wide as RDX and any value of it is a configuration, so that no bit of RDX is fixed; notes/assumptions/5.md -/
  signature : Word
  deriving DecidableEq, Repr

/-- R6: AVX512F requires MAXVL = 512 and AVX requires MAXVL >= 256; any other combination is not a configuration. -/
def Config.valid (c : Config) : Bool :=
  (!c.features.avx512f || c.maxvl == .w512) && (!c.features.avx || c.maxvl != .w128)

/-- `NVEC` in 64-bit mode (R22). -/
def Config.nvec (c : Config) : Nat := if c.maxvl = .w512 then 32 else 16

/-- The default of `ac_check`: never for a read of 16, 32 or 64 bytes, "may fault" for the 4-byte broadcast read at an address
not a multiple of 4 (R56). DESIGN CHOICE: "may fault" is taken as "faults", notes/assumptions/9.md -/
def acDefault : List AcEntry :=
  [⟨.evex128, 4, 0, 2 ^ 64⟩, ⟨.evex256, 4, 0, 2 ^ 64⟩, ⟨.evex512, 4, 0, 2 ^ 64⟩]

/-- The configuration the spec's own vectors take (95_test_vectors.md, Conventions), with `ac_check` at its default (R56).
DESIGN CHOICE, notes/assumptions/1.md and 5.md -/
def Config.standard : Config where
  maxvl     := .w512
  features  := ⟨true, true, true, true, true⟩
  kw        := .w64
  va        := .w48
  acCheck   := acDefault
  signature := 0

/-- The byte a read of shared memory returns, per draw: any value (R57, U12). A free value: notes/assumptions/15.md -/
opaque Config.sharedByte : Nat → Byte

/-- Which of several faulting ranges is reported, per draw (R179, U14). A free value: notes/assumptions/11.md -/
opaque Config.reportedFault : Nat → Nat

end Sys2Proof
end

