-- ==== Sys2Proof/Machine/State.lean ====
section
/-! DEFINITION. The state of the machine (10_state.md), the reasons a step can stop (60_exceptions.md), and the state
after reset (R35). All of it is plain data. -/

namespace Sys2Proof.Machine

/-- Processor modes (R3, R35, R104, R174). The spec decodes bytes in 64-bit mode only. -/
inductive Mode where
  | real | virtual8086 | protected32 | compatibility | mode64
  deriving DecidableEq, Repr

/-- The exceptions of R172, and #XM of R170. -/
inductive Exc where
  /-- #UD, raised by every form (R173, R174, R175) -/
  | ud
  /-- #NM, raised by every form (R176) -/
  | nm
  /-- #SS(0), raised by a memory operand (R177) -/
  | ss
  /-- #GP(0), raised by a memory operand (R177, R178) or while fetching (R102, R181) -/
  | gp
  /-- #PF(code), raised by a memory operand (R179) or while fetching (R181); `addr` is what CR2 records (R172). The width of
  the code is PRESUMED, 32 bits; notes/assumptions/35.md -/
  | pf (code : BitVec 32) (addr : Word)
  /-- #AC(0), raised by a memory operand where `ac_check` says so (R56, R180) -/
  | ac
  /-- #XM, raised by nothing: it stands here so that R170 can be stated -/
  | xm
  deriving DecidableEq, Repr

/-- The vector number of an exception (R170, R172). -/
def Exc.vector : Exc → Nat
  | .ud     => 6
  | .nm     => 7
  | .ss     => 12
  | .gp     => 13
  | .pf _ _ => 14
  | .ac     => 17
  | .xm     => 19

/-- The error code of an exception, where it has one (R172), in 32 bits. PRESUMED for the width, notes/assumptions/35.md -/
def Exc.errorCode : Exc → Option (BitVec 32)
  | .ud        => none
  | .nm        => none
  | .ss        => some 0
  | .gp        => some 0
  | .pf code _ => some code
  | .ac        => some 0
  | .xm        => none

/-- Why the machine stops with a fault. -/
inductive Fault where
  /-- `Fault(exception, code, pc)` of R183, raised by every meaning and by the fetch: the run is over. Safe: a system
  that handled the exception and resumed would complete a run the model abandons (notes/assumptions/17.md). -/
  | exception (e : Exc) (pc : Word)
  deriving DecidableEq, Repr

/-- Why the model has no next state to give. Each is safe: the model stops where hardware might go on. -/
inductive Refusal where
  /-- an arm of `exec` without a meaning; no arm is so -/
  | notModelled (mnemonic : String)
  /-- raised by the step and by every meaning: a mode other than 64-bit mode (R3, R104) -/
  | modeNotDecoded
  /-- raised by every meaning: MAXVL does not fit the feature flags (R6) -/
  | notAConfiguration
  /-- raised by the fetch: a legacy prefix stands twice (R86) -/
  | repeatedPrefix
  /-- raised by the fetch: two segment overrides (R86) -/
  | twoSegments
  /-- raised by the fetch: 66, F2 or F3 before `0F 57` (R87) -/
  | notXorps
  /-- raised by the fetch: pp or the map of some other instruction (R91, R94) -/
  | notVxorps
  /-- raised by the fetch: opcode bytes of no form (R206) -/
  | notThisInstruction
  /-- raised by the fetch: the code region ends inside the instruction (R206) -/
  | notWhole
  /-- raised by the fetch: pc is outside the launch's code region (R206) -/
  | outsideCode
  /-- raised by the step: pc stands at the end of the code region, so the run is over and the state final (R206) -/
  | endOfRun
  /-- raised by a memory operand: a byte the launch memory does not declare as plain memory (R60, R66) -/
  | undeclaredMemory
  /-- raised by every meaning on completion: `pc + len` is not canonical or exceeds 2^64 - 1 (R27) -/
  | nextPcOutOfRange
  deriving DecidableEq, Repr

/-- Who may write a region of plain memory: this processor's launch alone, or other agents too (R57, R61, R190). -/
inductive RegionKind where
  | own | shared
  deriving DecidableEq, Repr

/-- A range of addresses the launch declares as plain readable memory (R60, R66, R201). -/
structure Region where
  base : Nat
  size : Nat
  kind : RegionKind
  deriving DecidableEq, Repr

/-- What the translation oracle is asked about (R59, R172). -/
inductive Access where
  | read | fetch
  deriving DecidableEq, Repr

/-- A fault answer of the translation oracle: a page fault with the bits of its code (R59, R172, R179), or a segment fault,
which is #SS(0) or #GP(0) by the operand's segment (R59, R177). R172 names bits 0 to 4 of the code; `above` is bits 31:5,
whatever the oracle answers: notes/assumptions/35.md -/
inductive XlatFault where
  | page (present user reserved : Bool) (above : BitVec 27)
  | segment
  deriving DecidableEq, Repr

/-- A range of addresses for which the translation oracle answers with a fault (R59; notes/assumptions/10.md). -/
structure XlatEntry where
  base   : Nat
  size   : Nat
  access : Access
  answer : XlatFault
  deriving DecidableEq, Repr

/-- The launch's code region `[base, base + size)` (R206). -/
structure CodeRegion where
  base : Nat
  size : Nat
  deriving DecidableEq, Repr

/-- One read of memory in the event history (R57, R61): where it began and the bytes it was answered with. -/
structure ReadEvent where
  addr  : Nat
  bytes : List Byte
  deriving DecidableEq, Repr

/-- Everything the spec gives the machine. INVENTORY.md, State, names the rule and the reset value of each field. The widths of
the control and status registers are PRESUMED: notes/assumptions/8.md -/
structure State where
  cfg    : Config
  mode   : Mode
  zmm    : Vector VReg 32
  k      : Vector (BitVec 64) 8
  x      : Vector Word 16
  pc     : Word
  eflags : BitVec 32
  mxcsr  : BitVec 32
  cr0    : BitVec 64
  /-- CR2, as wide as the linear address it records (R59, R172). PRESUMED for the width, notes/assumptions/8.md -/
  cr2    : Word
  cr4    : BitVec 64
  xcr0   : BitVec 64
  /-- the code-segment base (R35), of which the spec gives a value at reset and no width: 64 bits, as R103 gives the FS and GS
  bases. PRESUMED for the width, notes/assumptions/8.md -/
  csBase : Word
  fsBase : Word
  gsBase : Word
  mem    : List Host.Cell
  map    : List Region
  xlat   : List XlatEntry
  code   : CodeRegion
  reads  : List ReadEvent
  fault  : Option Fault
  draws  : Nat
  deriving DecidableEq, Repr

/-- The state after reset of a processor of a given configuration: the table of R35 (PRESUMED, notes/assumptions/4.md),
with nothing launched: no code region, no declared memory, no faulting range (DESIGN CHOICE, notes/assumptions/10.md,
13.md, 14.md, 16.md, 17.md, 18.md). RDX, register 2, is the configuration's signature, all 64 bits of it (DESIGN CHOICE,
notes/assumptions/5.md). -/
def State.resetOf (c : Config) : State where
  cfg    := c
  mode   := .real
  zmm    := Vector.replicate 32 0
  k      := Vector.replicate 8 0
  x      := (Vector.replicate 16 0).set 2 c.signature
  pc     := 0xFFF0
  eflags := 0x00000002
  mxcsr  := 0x1F80
  cr0    := 0x60000010
  cr2    := 0
  cr4    := 0
  xcr0   := 1
  csBase := 0xFFFF0000
  fsBase := 0
  gsBase := 0
  mem    := []
  map    := []
  xlat   := []
  code   := ⟨0, 0⟩
  reads  := []
  fault  := none
  draws  := 0

/-- The state right after reset, in the standard configuration. -/
def State.reset : State := State.resetOf Config.standard

end Sys2Proof.Machine
end

