-- ==== Sys2Proof/Machine/Ops.lean ====
section
/-! DEFINITION. The named operations over registers and memory, raising an exception, fetching an instruction's bytes,
and the boot requirements that a launch has met. -/

namespace Sys2Proof.Machine

/-! ## Elements of a vector (R7, R9, R10) -/

/-- `V[VL-1:0]`, zero-extended: the low bits of a register or a value. -/
def low (n : Nat) (v : VReg) : VReg := (v.setWidth n).setWidth 512

/-- Write bits n-1:0 and leave the bits above as they were (R12, `zmm[n][hi:lo] <- v`). -/
def setLow (n : Nat) (old new : VReg) : VReg := ((old >>> n) <<< n) ||| low n new

/-- Element j, bits 32j+31:32j (R10). -/
def lane (v : VReg) (j : Nat) : Lane := v.extractLsb' (32 * j) 32

/-- The value whose element j is `f j` for j < n and whose other bits are zero. -/
def ofLanes : Nat → (Nat → Lane) → VReg
  | 0, _     => 0
  | n + 1, f => ofLanes n f ||| ((f n).setWidth 512 <<< (32 * n))

/-- `Repl(KL, t)` (R12). -/
def repl (kl : Nat) (t : Lane) : VReg := ofLanes kl (fun _ => t)

/-! ## Registers -/

/-- `zmm[n]` (R20). -/
def State.zreg (s : State) (n : BitVec 5) : VReg := s.zmm[n.toNat]'n.isLt

/-- `zmm[n] <- v`, all bits (R12). -/
def State.writeZmm (s : State) (n : BitVec 5) (v : VReg) : State := { s with zmm := s.zmm.set n.toNat v n.isLt }

/-- `x[i]` (R26). -/
def State.xreg (s : State) (n : BitVec 4) : Word := s.x[n.toNat]'n.isLt

/-- `k[n]` (R24). -/
def State.kreg (s : State) (n : BitVec 3) : BitVec 64 := s.k[n.toNat]'n.isLt

/-- `pc <- target` (R12). -/
def State.setPc (s : State) (target : Word) : State := { s with pc := target }

/-! ## Memory: bytes by address (R32, R53) -/

/-- What an address that no cell lists reads as. DESIGN CHOICE, notes/assumptions/13.md -/
def unlistedByte : Byte := 0

/-- The byte at an address. -/
def memRead : List Host.Cell → Nat → Byte
  | [], _ => unlistedByte
  | (b, v) :: m, a => if a = b then v else memRead m a

/-- A cell list put in front of a canonical list, left out when it holds what an unlisted address reads as. -/
def memCons (a : Nat) (v : Byte) (m : List Host.Cell) : List Host.Cell :=
  if v = unlistedByte then m else (a, v) :: m

/-- Write one byte, keeping the list sorted and free of bytes that an unlisted address reads as. No instruction uses it
(R52): a launch places bytes with it. -/
def memWrite : List Host.Cell → Nat → Byte → List Host.Cell
  | [], a, v => memCons a v []
  | (b, w) :: m, a, v =>
    if a < b then memCons a v ((b, w) :: m)
    else if a = b then memCons a v m
    else (b, w) :: memWrite m a v

/-- `MemWrite` (R12), used by a launch only (R52). -/
def memWriteBytes (m : List Host.Cell) (a : Nat) : List Byte → List Host.Cell
  | []      => m
  | v :: vs => memWriteBytes (memWrite m a v) (a + 1) vs

/-- The canonical form: addresses strictly rising, and no entry equal to what an unlisted address reads as. -/
def Memory.wf (m : List Host.Cell) : Bool :=
  decide (m.Pairwise (fun c d => c.1 < d.1)) && m.all (fun c => c.2 != unlistedByte)

/-- The value whose bits 8m+7:8m are byte m: little-endian (R53). -/
def leNat : List Byte → Nat
  | []      => 0
  | b :: bs => b.toNat + 256 * leNat bs

/-- An address in a range. -/
def inRange (a base size : Nat) : Bool := decide (base ≤ a ∧ a < base + size)

/-- The first declared region that holds an address, if any: whether it is plain memory and whose (R60, R66). DESIGN CHOICE for
regions that overlap, notes/assumptions/14.md -/
def State.regionOf (s : State) (a : Nat) : Option RegionKind :=
  match s.map.find? (fun r => inRange a r.base r.size) with
  | some r => some r.kind
  | none   => none

/-- Read n bytes upward from an address: the launch memory's bytes in its own regions, any bytes in shared ones, and
nothing when some byte is not declared as plain memory (R53, R57, R61, R66). The counter of free values goes in and
comes out. -/
def State.readBytes (s : State) : Nat → Nat → Nat → Option (List Byte × Nat)
  | 0, _, draws => some ([], draws)
  | n + 1, a, draws =>
    match s.regionOf a with
    | none => none
    | some .own =>
      match s.readBytes n (a + 1) draws with
      | some (bs, d) => some (memRead s.mem a :: bs, d)
      | none         => none
    | some .shared =>
      match s.readBytes n (a + 1) (draws + 1) with
      | some (bs, d) => some (Config.sharedByte draws :: bs, d)
      | none         => none

/-- A completed read joins the event history, and the free values it drew are used up (R57, R61). -/
def State.noteReads (s : State) (events : List ReadEvent) (draws : Nat) : State :=
  { s with reads := s.reads ++ events, draws := draws }

/-! ## Addresses: canonical form and translation (R59, R67) -/

/-- Bits 63 down to VA-1 of an address are all equal (R59); an address of 2^64 or more has no such form (R67). -/
def canonical (va a : Nat) : Bool :=
  decide (a / 2 ^ (va - 1) = 0 ∨ a / 2 ^ (va - 1) = 2 ^ (65 - va) - 1)

/-- Every byte of a range has a canonical address (R59, R67). -/
def canonicalRange (va a n : Nat) : Bool := (List.range n).all (fun j => canonical va (a + j))

/-- A range of the oracle and the n bytes from an address have a byte in common. -/
def XlatEntry.touches (e : XlatEntry) (a n : Nat) (acc : Access) : Bool :=
  e.access == acc && decide (0 < e.size ∧ e.base < a + n ∧ a < e.base + e.size)

/-- `Translate(addr, n, access)` (R59): none is ok. When several faulting ranges are touched, which one is reported is
a free value (R179). -/
def State.translate (s : State) (a n : Nat) (acc : Access) : Option XlatEntry :=
  match s.xlat.filter (fun e => e.touches a n acc) with
  | []      => none
  | [e]     => some e
  | e :: es => some ((e :: es).getD (Config.reportedFault s.draws % (e :: es).length) e)

/-- The page-fault code: bit 0 present, bit 1 write (0), bit 2 user, bit 3 reserved bit, bit 4 fetch (R172). R172 gives no
width and no bit above 4: the 32 bits are PRESUMED, and bits 31:5 are the translation oracle's own answer (R59), which the
model fixes at nothing; notes/assumptions/35.md -/
def pfCode (acc : Access) (present user reserved : Bool) (above : BitVec 27) : BitVec 32 :=
  above ++ bit1 (acc == .fetch) ++ bit1 reserved ++ bit1 user ++ bit1 false ++ bit1 present

/-- The exception a fault answer ends the step with (R59, R177, R179). What CR2 records is the lowest byte of the access
in the faulting range. DEDUCED, notes/assumptions/12.md -/
def XlatEntry.exc (e : XlatEntry) (a : Nat) (segExc : Exc) : Exc :=
  match e.answer with
  | .page p u r up => .pf (pfCode e.access p u r up) (BitVec.ofNat 64 (max a e.base))
  | .segment       => segExc

/-! ## Raising an exception and completing (R13, R27, R182, R183) -/

/-- What ends a step before its writes. -/
inductive Stop where
  | fault (r : Fault)
  | refused (r : Refusal)
  deriving DecidableEq, Repr

/-- A stop as the outcome of a step. -/
def Stop.outcome : Stop → Host.Outcome State Fault Refusal
  | .fault r   => .fault r
  | .refused r => .refused r

/-- `raise #XX(code)` (R12, R183): the outcome is the exception with the pc of the faulting instruction, and no state is
written (R182). No handler is entered: the spec describes none, so there is no return from one either (R184). -/
def State.raise (s : State) (e : Exc) : Stop := .fault (.exception e s.pc)

/-- What a fault leaves behind when the run is over: it is recorded, and a page fault has recorded its linear address in
CR2 (R172, R183). -/
def State.recordFault (s : State) : Fault → State
  | .exception (.pf code addr) pc => { s with fault := some (.exception (.pf code addr) pc), cr2 := addr }
  | .exception e pc               => { s with fault := some (.exception e pc) }

/-- `pc + len` may be the next pc: canonical and not past 2^64 - 1 (R27). -/
def State.nextPcOk (s : State) (len : Nat) : Bool := canonical s.cfg.va.bits (s.pc.toNat + len)

/-- `pc <- pc + len`, or the refusal of R27 at the edge. It comes last, after every exception and after the refusal of an
undeclared operand. DEDUCED, notes/assumptions/27.md and 36.md -/
def State.advance (s : State) (len : Nat) : Host.Outcome State Fault Refusal :=
  if s.nextPcOk len then .next (s.setPc (s.pc + BitVec.ofNat 64 len)) else .refused .nextPcOutOfRange

/-! ## Fetch (R64, R80, R181, R206) -/

/-- Why the bytes that can be fetched end. -/
inductive FetchEnd where
  /-- as many bytes as the longest instruction has -/
  | full
  /-- the end of the code region -/
  | regionEnd
  /-- the next byte cannot be fetched -/
  | faulting (e : Exc)
  deriving DecidableEq, Repr

/-- Why the byte at an address cannot be fetched, if so: #GP(0) for an address that is not canonical, or the translation
oracle's answer (R59, R181). -/
def State.fetchFault (s : State) (a : Nat) : Option Exc :=
  if canonical s.cfg.va.bits a then
    match s.translate a 1 .fetch with
    | none   => none
    | some e => some (e.exc a .gp)
  else some .gp

/-- Up to n bytes of program text from an address, in increasing address order (R54, R64). The end of the code region stops it
before a fault of the byte there, and State.map is not asked. DESIGN CHOICE, notes/assumptions/18.md -/
def State.fetchBytes (s : State) : Nat → Nat → List Byte × FetchEnd
  | 0, _ => ([], .full)
  | n + 1, a =>
    if inRange a s.code.base s.code.size then
      match s.fetchFault a with
      | some e => ([], .faulting e)
      | none   => (memRead s.mem a :: (s.fetchBytes n (a + 1)).1, (s.fetchBytes n (a + 1)).2)
    else ([], .regionEnd)

/-- The bytes at pc, and why they end. -/
def State.fetch (s : State) : List Byte × FetchEnd := s.fetchBytes maxLen s.pc.toNat

/-- What a step does with bytes that decode to no instruction (R86, R87, R91, R94, R97, R102, R181, R206). A fault of the fetch,
or #GP(0) past 15 bytes, is raised only where the bytes before it allow no verdict yet; so the refusals of R86, and of an opcode
byte of no form, come before it. DEDUCED, notes/assumptions/21.md and 22.md. In a configuration that R6 excludes these verdicts
stand too: DEDUCED, notes/assumptions/36.md -/
def State.rejected (s : State) (r : Reject) (why : FetchEnd) : Stop :=
  match r with
  | .repeatedPrefix     => .refused .repeatedPrefix
  | .twoSegments        => .refused .twoSegments
  | .notXorps           => .refused .notXorps
  | .notVxorps          => .refused .notVxorps
  | .notThisInstruction => .refused .notThisInstruction
  | .invalidOpcode      => s.raise .ud
  | .tooLong            => s.raise .gp
  | .truncated          =>
    match why with
    | .full       => s.raise .gp
    | .regionEnd  => .refused .notWhole
    | .faulting e => s.raise e

/-! ## A launch (R201, R202) -/

/-- Set one bit of a control register. -/
def setBit (v : BitVec 64) (n : Nat) : BitVec 64 := v ||| BitVec.twoPow 64 n

/-- Clear one bit of a control register. -/
def clearBit (v : BitVec 64) (n : Nat) : BitVec 64 := v &&& ~~~(BitVec.twoPow 64 n)

/-- What software must have done before a form runs (R202): 64-bit mode; CR0.EM and CR0.TS clear, CR4.OSFXSR and
CR4.OSXSAVE set; XCR0 bits 1, 2, 5, 6, 7 set; program and operands mapped as readable plain memory; no fault recorded
(R201). -/
def State.boot (s : State) : State :=
  { s with
    mode  := .mode64
    cr0   := clearBit (clearBit s.cr0 2) 3
    cr4   := setBit (setBit s.cr4 9) 18
    xcr0  := setBit (setBit (setBit (setBit (setBit s.xcr0 1) 2) 5) 6) 7
    map   := [⟨0, 2 ^ 64, .own⟩]
    xlat  := []
    fault := none }

/-- Place program bytes at pc, as the whole of the code region (R201, R206). -/
def State.place (s : State) (bytes : List Byte) : State :=
  { s with
    mem  := memWriteBytes s.mem s.pc.toNat bytes
    code := ⟨s.pc.toNat, bytes.length⟩ }

end Sys2Proof.Machine
end

