-- ==== Sys2Proof/Machine/Flags.lean ====
section
/-! DEFINITION. Feature flags and control flags: which forms a configuration admits (R2, R6, R31), what stands behind
`Enabled(form)` (R30), and the checks that come before an instruction's reads (R173 to R176, R181). No form reads or
writes a status flag (R28, R29), so there is no flag computation. -/

namespace Sys2Proof.Machine

/-- CR0.EM (R30). -/
def State.em (s : State) : Bool := s.cr0.getLsbD 2

/-- CR0.TS (R30). -/
def State.ts (s : State) : Bool := s.cr0.getLsbD 3

/-- CR0.AM, bit 18. PRESUMED, notes/assumptions/8.md -/
def State.am (s : State) : Bool := s.cr0.getLsbD 18

/-- EFLAGS.AC, bit 18. PRESUMED, notes/assumptions/8.md -/
def State.acFlag (s : State) : Bool := s.eflags.getLsbD 18

/-- CR4.OSFXSR (R30). -/
def State.osfxsr (s : State) : Bool := s.cr4.getLsbD 9

/-- CR4.OSXSAVE (R30). -/
def State.osxsave (s : State) : Bool := s.cr4.getLsbD 18

/-- XCR0 bits 2:1 = 11b (R30). -/
def State.xcr0Avx (s : State) : Bool := s.xcr0.getLsbD 1 && s.xcr0.getLsbD 2

/-- XCR0 bits 7:5 = 111b (R30). -/
def State.xcr0Evex (s : State) : Bool := s.xcr0.getLsbD 5 && s.xcr0.getLsbD 6 && s.xcr0.getLsbD 7

/-- The CPUID flags a form needs are all set: the cells of R2, and AVX512F with any EVEX form (R6, R31). -/
def admits (c : Features) : Form → Bool
  | .sse     => c.sse
  | .vex128  => c.avx
  | .vex256  => c.avx
  | .evex128 => c.avx512f && c.avx512vl && c.avx512dq
  | .evex256 => c.avx512f && c.avx512vl && c.avx512dq
  | .evex512 => c.avx512f && c.avx512dq

/-- Real-address or virtual-8086 mode (R30, R174, R175). -/
def State.realOrV86 (s : State) : Bool := s.mode == .real || s.mode == .virtual8086

/-- The part of `Enabled(form)` whose failure is #UD (R30, R173, R174, R175). -/
def State.usable (s : State) : Form → Bool
  | .sse     => !s.em && s.osfxsr
  | .vex128  => s.osxsave && s.xcr0Avx && !s.realOrV86
  | .vex256  => s.osxsave && s.xcr0Avx && !s.realOrV86
  | .evex128 => s.osxsave && s.xcr0Avx && s.xcr0Evex && !s.realOrV86
  | .evex256 => s.osxsave && s.xcr0Avx && s.xcr0Evex && !s.realOrV86
  | .evex512 => s.osxsave && s.xcr0Avx && s.xcr0Evex && !s.realOrV86

/-- `Enabled(form)` (R30): the part whose failure is #UD, and CR0.TS = 0. -/
def State.enabled (s : State) (f : Form) : Bool := s.usable f && !s.ts

/-- A form needs protected mode (R174, R175). -/
def needsProtected : Form → Bool
  | .sse => false
  | _    => true

/-- The checks before an instruction's reads (R173 to R176, R181 steps 2 and 3); `illegal` says that the instruction's own
prefixes or fields are a #UD condition. Modes the spec gives no decoding for are refused (R104), but that a VEX or EVEX
form in real-address or virtual-8086 mode is #UD, which R174 and R175 state (notes/assumptions/25.md). A configuration that R6
excludes is refused before any of it (DEDUCED, notes/assumptions/36.md). -/
def State.gate (s : State) (f : Form) (illegal : Bool) : Option Stop :=
  if s.cfg.valid = false then some (.refused .notAConfiguration)
  else if (s.realOrV86 && needsProtected f) = true then some (s.raise .ud)
  else if s.mode ≠ .mode64 then some (.refused .modeNotDecoded)
  else if (illegal || !admits s.cfg.features f || !s.usable f) = true then some (s.raise .ud)
  else if s.ts = true then some (s.raise .nm)
  else none

end Sys2Proof.Machine
end

