-- ==== Sys2Proof/Machine/Operands.lean ====
section
/-! DEFINITION. Operands: register numbers, the memory operand's effective and linear address, and reading the second
source (R50 to R59, R82 to R103). -/

namespace Sys2Proof.Machine

/-! ## Register numbers -/

/-- `{e, n}`: a 4-bit register number (R88, R89, R90, R95). -/
def num4 (e : Bool) (n : BitVec 3) : BitVec 4 := bit1 e ++ n

/-- `{e', e, n}`: a 5-bit vector register number (R95). -/
def num5 (e2 e : Bool) (n : BitVec 3) : BitVec 5 := bit1 e2 ++ bit1 e ++ n

/-- The REX byte that counts: the one immediately before the opcode (R86, R88). Its bits are W, R, X, B; all are 0 when
there is none. -/
def liveRex (pre : List Prefix) : BitVec 4 :=
  match pre.getLast? with
  | some (.rex wrxb) => wrxb
  | _                => 0

/-! ## The memory operand -/

/-- Where the base value comes from (R99). -/
inductive BaseReg where
  | absent
  | gpr (n : BitVec 4)
  /-- the address of the next instruction -/
  | next
  deriving DecidableEq, Repr

/-- A memory operand with its register numbers assembled and its displacement extended and scaled (R99, R100). -/
structure MemRef where
  base  : BaseReg
  index : Option (BitVec 4 × BitVec 2)
  disp  : Word
  deriving DecidableEq, Repr

/-- A displacement as a 64-bit value; `n` is the scale of an 8-bit one (R100). -/
def dispValue (n : Nat) : Disp → Word
  | .absent => 0
  | .d8 d   => d.signExtend 64 * BitVec.ofNat 64 n
  | .d32 d  => d.signExtend 64

/-- `{X, index}` = 0100b means no index (R98). -/
def indexReg (x : Bool) (index : BitVec 3) (scale : BitVec 2) : Option (BitVec 4 × BitVec 2) :=
  if num4 x index = 4 then none else some (num4 x index, scale)

/-- The memory operand that ModRM and SIB spell, with the extension bits X and B and the scale N of an 8-bit
displacement (R98, R99, R100). -/
def memRef (x b : Bool) (n : Nat) : AddrForm → MemRef
  | .base r d         => ⟨.gpr (num4 b r), none, dispValue n d⟩
  | .ripRel d         => ⟨.next, none, d.signExtend 64⟩
  | .sib sc ix r d    => ⟨.gpr (num4 b r), indexReg x ix sc, dispValue n d⟩
  | .sibAbs sc ix d   => ⟨.absent, indexReg x ix sc, d.signExtend 64⟩

/-- The second source: a vector register or memory (R83, R84, R85). -/
inductive Src2 where
  | reg (n : BitVec 5)
  | mem (m : MemRef)
  deriving DecidableEq, Repr

/-- The operands of one instruction: their numbers, the 67 prefix, the segment override and the length. -/
structure Operands where
  dest     : BitVec 5
  src1     : BitVec 5
  src2     : Src2
  addr32   : Bool
  override : Option Seg
  len      : Nat
  deriving DecidableEq, Repr

/-- The segment override among the prefixes (R86, R103). -/
def overrideOf : List Prefix → Option Seg
  | []            => none
  | .seg s :: _   => some s
  | _ :: ps       => overrideOf ps

/-- The 67 prefix is present (R86, R99). -/
def hasAddrSize (pre : List Prefix) : Bool := pre.contains .addrSize

/-- The base value (R99). -/
def State.baseValue (s : State) (len : Nat) : BaseReg → Word
  | .absent => 0
  | .gpr n  => s.xreg n
  | .next   => s.pc + BitVec.ofNat 64 len

/-- The index value, scaled (R98, R99). -/
def State.indexValue (s : State) : Option (BitVec 4 × BitVec 2) → Word
  | none         => 0
  | some (n, sc) => s.xreg n <<< sc.toNat

/-- The effective address: the sum modulo 2^A, zero-extended (R99). With A = 32 the sum modulo 2^32 is the same whether or
not the register values are reduced modulo 2^32 before it. -/
def State.ea (s : State) (o : Operands) (m : MemRef) : Word :=
  let sum := s.baseValue o.len m.base + s.indexValue m.index + m.disp
  if o.addr32 then (sum.setWidth 32).setWidth 64 else sum

/-- The default segment: SS when the base register is RSP or RBP, number 4 or 5 exactly, else DS (R103). -/
def defaultSeg : BaseReg → Seg
  | .gpr n => if n = 4 ∨ n = 5 then .ss else .ds
  | _      => .ds

/-- The operand's segment: the override, else the default (R103, R177). DEDUCED for an override of a default of SS,
notes/assumptions/23.md -/
def operandSeg (o : Operands) (m : MemRef) : Seg :=
  match o.override with
  | some g => g
  | none   => defaultSeg m.base

/-- A segment's base in 64-bit mode: CS, DS, ES, SS count as 0 (R103). -/
def State.segBase (s : State) : Seg → Word
  | .fs => s.fsBase
  | .gs => s.gsBase
  | _   => 0

/-- The linear address of the memory operand (R103). -/
def State.lin (s : State) (o : Operands) (m : MemRef) : Word := s.ea o m + s.segBase (operandSeg o m)

/-- #SS(0) when the operand's segment is SS, else #GP(0) (R177). -/
def segExc (g : Seg) : Exc := if g = .ss then .ss else .gp

/-- `ac_check` answers true for a read of n bytes by a form at an address (R56). -/
def acHit (c : Config) (f : Form) (a n : Nat) : Bool :=
  c.acCheck.any (fun e => e.form == f && e.read == n && inRange a e.base e.size)

/-- #AC(0) is raised: CR0.AM and EFLAGS.AC are set, the operand of a form other than form 1 is not aligned to its size, and
`ac_check` says so (R56, R180; notes/assumptions/9.md). -/
def State.acFault (s : State) (f : Form) (a n : Nat) : Bool :=
  s.am && s.acFlag && f != .sse && a % n != 0 && acHit s.cfg f a n

/-- Why the n bytes of the memory operand at linear address `a` cannot be read, first hit of R181 steps 4 to 7:
canonical form (R59, R67, R177), alignment of form 1 (R55, R178), alignment check (R56, R180), translation (R59, R179).
The whole operand counts, whatever a writemask selects (R58). That a #SS(0) or #GP(0) the translation oracle answers stands with
its #PF, at step 7, is DEDUCED: R181 names neither place for it, notes/assumptions/37.md -/
def State.operandFault (s : State) (f : Form) (g : Seg) (a n : Nat) : Option Exc :=
  if canonicalRange s.cfg.va.bits a n = false then some (segExc g)
  else if f = .sse ∧ a % 16 ≠ 0 then some .gp
  else if s.acFault f a n = true then some .ac
  else
    match s.translate a n .read with
    | some e => some (e.exc a (segExc g))
    | none   => none

/-- What reading the second source gives: its value, the read events and the counter of free values afterwards. -/
structure Loaded where
  value  : VReg
  events : List ReadEvent
  draws  : Nat
  deriving DecidableEq, Repr

/-- The size of a form's memory operand in bytes: 4 for a broadcast, else VL/8 (R50, R51). -/
def operandSize (f : Form) (bcast : Bool) : Nat := if bcast then 4 else f.vl / 8

/-- The value of a memory operand from its bytes: broadcast to every element, or the whole vector (R53, R54, R156). -/
def operandValue (f : Form) (bcast : Bool) (bytes : List Byte) : VReg :=
  if bcast then repl f.kl (BitVec.ofNat 32 (leNat bytes)) else BitVec.ofNat 512 (leNat bytes)

/-- Read the memory operand: one read (R50, R51), or the exception or refusal that stops it. An operand that meets an
exception of R181 steps 4 to 7 raises it, in undeclared memory too; the refusal of R66 and R189 comes after. DEDUCED,
notes/assumptions/36.md -/
def State.loadMem (s : State) (f : Form) (bcast : Bool) (o : Operands) (m : MemRef) : Except Stop Loaded :=
  match s.operandFault f (operandSeg o m) (s.lin o m).toNat (operandSize f bcast) with
  | some e => .error (s.raise e)
  | none   =>
    match s.readBytes (operandSize f bcast) (s.lin o m).toNat s.draws with
    | none         => .error (.refused .undeclaredMemory)
    | some (bs, d) => .ok ⟨operandValue f bcast bs, [⟨(s.lin o m).toNat, bs⟩], d⟩

/-- Read the second source: register bits VL-1:0, or memory (R83, R84, R85, R131, R140, R150). -/
def State.loadSrc2 (s : State) (f : Form) (bcast : Bool) (o : Operands) : Except Stop Loaded :=
  match o.src2 with
  | .reg n => .ok ⟨low f.vl (s.zreg n), [], s.draws⟩
  | .mem m => s.loadMem f bcast o m

/-! ## The operands of each spelling -/

/-- The ModRM:r/m operand: a register with its number already extended, or memory. -/
def src2Of (regNum : BitVec 3 → BitVec 5) (x b : Bool) (n : Nat) : RM → Src2
  | .reg r => .reg (regNum r)
  | .mem a => .mem (memRef x b n a)

/-- Op/En A: DEST and SRC1 are ModRM:reg, SRC2 is ModRM:r/m, extended by REX (R83, R88). -/
def legacyOperands (e : Legacy) : Operands :=
  let rex := liveRex e.pre
  { dest := num5 false (rex.getLsbD 2) e.reg
    src1 := num5 false (rex.getLsbD 2) e.reg
    src2 := src2Of (num5 false (rex.getLsbD 0)) (rex.getLsbD 1) (rex.getLsbD 0) 1 e.rm
    addr32 := hasAddrSize e.pre
    override := overrideOf e.pre
    len := e.len }

/-- Op/En B in the two-byte spelling, where X = B = 0 (R84, R89, R91). -/
def vex2Operands (e : Vex2) : Operands :=
  { dest := num5 false e.r e.reg
    src1 := bit1 false ++ e.vvvv
    src2 := src2Of (num5 false false) false false 1 e.rm
    addr32 := hasAddrSize e.pre
    override := overrideOf e.pre
    len := e.len }

/-- Op/En B in the three-byte spelling (R84, R90, R91). -/
def vex3Operands (e : Vex3) : Operands :=
  { dest := num5 false e.r e.reg
    src1 := bit1 false ++ e.vvvv
    src2 := src2Of (num5 false e.b) e.x e.b 1 e.rm
    addr32 := hasAddrSize e.pre
    override := overrideOf e.pre
    len := e.len }

/-- Op/En C: R' and V' extend the vector numbers, X and B a register r/m; an 8-bit displacement is scaled by the size of
the memory operand (R85, R95, R100). -/
def evexOperands (f : Form) (e : Evex) : Operands :=
  { dest := num5 e.r2 e.r e.reg
    src1 := bit1 e.v2 ++ e.vvvv
    src2 := src2Of (num5 e.x e.b) e.x e.b (operandSize f e.bc) e.rm
    addr32 := hasAddrSize e.pre
    override := overrideOf e.pre
    len := e.len }

end Sys2Proof.Machine
end

