-- ==== Sys2Proof/Machine/Xor.lean ====
section
/-! DEFINITION. The frame all six forms share: checks, reads, one write, pc (R13, R181). -/

namespace Sys2Proof.Machine

/-- One step of any form: the checks of `gate`, then the second source, then `zmm[dest]` takes `combine old src1 src2`
(each as it was before the step), then the read joins the history and the pc advances (R13, R131, R140, R150). -/
def State.runForm (s : State) (f : Form) (illegal bcast : Bool) (o : Operands) (combine : VReg → VReg → VReg → VReg) :
    Host.Outcome State Fault Refusal :=
  match s.gate f illegal with
  | some stop => stop.outcome
  | none =>
    match s.loadSrc2 f bcast o with
    | .error stop => stop.outcome
    | .ok l =>
      ((s.writeZmm o.dest (combine (s.zreg o.dest) (s.zreg o.src1) l.value)).noteReads l.events l.draws).advance o.len

end Sys2Proof.Machine
end

