-- ==== Sys2Proof/Machine/Evex.lean ====
section
/-! DEFINITION. The EVEX forms (42_vxorps_evex.md): writemask, zeroing, broadcast. -/

namespace Sys2Proof.Machine

/-- The #UD conditions of R97 that a decoded row can still have: a prefix that must not precede EVEX, zeroing with no
writemask, EVEX.b with a register operand (R157). -/
def evexIllegal (e : Evex) : Bool :=
  !e.pre.all Prefix.beforeVex || (e.z && e.aaa == 0) ||
    (e.bc && match e.rm with
      | .reg _ => true
      | .mem _ => false)

/-- `active_j`: no writemask, or bit j of `k[aaa]` is 1 (R25, R150). -/
def State.active (s : State) (aaa : BitVec 3) (j : Nat) : Bool := aaa == 0 || (s.kreg aaa).getLsbD j

/-- `EvexXor` (R150): each element is the XOR where it is active, and else the old element or zero; the bits above VL are
zero whatever the mask. -/
def evexXor (f : Form) (active : Nat → Bool) (z : Bool) (old src1 src2 : VReg) : VReg :=
  ofLanes f.kl (fun j => if active j then lane src1 j ^^^ lane src2 j else if z then 0 else lane old j)

/-- The meaning of an EVEX form (R150, R151, R152, R153). -/
def State.runEvex (s : State) (f : Form) (e : Evex) : Host.Outcome State Fault Refusal :=
  s.runForm f (evexIllegal e) e.bc (evexOperands f e) (evexXor f (s.active e.aaa) e.z)

/-- `VXORPS xmm1 {k1}{z}, xmm2, xmm3/m128/m32bcst` (R151). -/
def execVxorpsEvex128 (e : Evex) (s : State) : Host.Outcome State Fault Refusal := s.runEvex .evex128 e

/-- `VXORPS ymm1 {k1}{z}, ymm2, ymm3/m256/m32bcst` (R152). -/
def execVxorpsEvex256 (e : Evex) (s : State) : Host.Outcome State Fault Refusal := s.runEvex .evex256 e

/-- `VXORPS zmm1 {k1}{z}, zmm2, zmm3/m512/m32bcst` (R153). -/
def execVxorpsEvex512 (e : Evex) (s : State) : Host.Outcome State Fault Refusal := s.runEvex .evex512 e

end Sys2Proof.Machine
end

