-- ==== Sys2Proof/Machine/Sse.lean ====
section
/-! DEFINITION. The legacy SSE form (40_xorps_sse.md). -/

namespace Sys2Proof.Machine

/-- A LOCK prefix is a #UD condition of form 1 (R86, R131, R173). -/
def legacyIllegal (e : Legacy) : Bool := e.pre.contains .lock

/-- `XORPS xmm1, xmm2/m128` (R131): bits 127:0 of the destination become DEST XOR SRC2, the bits above are unmodified. -/
def execXorps (e : Legacy) (s : State) : Host.Outcome State Fault Refusal :=
  s.runForm .sse (legacyIllegal e) false (legacyOperands e) (fun old src1 src2 => setLow 128 old (src1 ^^^ src2))

end Sys2Proof.Machine
end

