-- ==== Sys2Proof/Machine/Vex.lean ====
section
/-! DEFINITION. The VEX forms (41_vxorps_vex.md), each in its two spellings. -/

namespace Sys2Proof.Machine

/-- F0, 66, F2, F3 or REX before a VEX prefix is a #UD condition (R92, R140, R174). -/
def vexIllegal (pre : List Prefix) : Bool := !pre.all Prefix.beforeVex

/-- `zmm[d] <- zext_MAXVL(S1 XOR S2)` over VL bits (R140, R141). -/
def vexXor (f : Form) (_old src1 src2 : VReg) : VReg := low f.vl (src1 ^^^ src2)

/-- `VXORPS xmm1, xmm2, xmm3/m128`, two-byte VEX (R140). -/
def execVxorpsVex128C5 (e : Vex2) (s : State) : Host.Outcome State Fault Refusal :=
  s.runForm .vex128 (vexIllegal e.pre) false (vex2Operands e) (vexXor .vex128)

/-- `VXORPS xmm1, xmm2, xmm3/m128`, three-byte VEX (R140). -/
def execVxorpsVex128C4 (e : Vex3) (s : State) : Host.Outcome State Fault Refusal :=
  s.runForm .vex128 (vexIllegal e.pre) false (vex3Operands e) (vexXor .vex128)

/-- `VXORPS ymm1, ymm2, ymm3/m256`, two-byte VEX (R141). -/
def execVxorpsVex256C5 (e : Vex2) (s : State) : Host.Outcome State Fault Refusal :=
  s.runForm .vex256 (vexIllegal e.pre) false (vex2Operands e) (vexXor .vex256)

/-- `VXORPS ymm1, ymm2, ymm3/m256`, three-byte VEX (R141). -/
def execVxorpsVex256C4 (e : Vex3) (s : State) : Host.Outcome State Fault Refusal :=
  s.runForm .vex256 (vexIllegal e.pre) false (vex3Operands e) (vexXor .vex256)

end Sys2Proof.Machine
end

