-- ==== Sys2Proof/WellFormed.lean ====
section
/-! DEFINITION. Which terms of `Instr` have an encoding (R80 to R102): exactly those the decoder can give. A term that
is well-formed may still raise #UD when it runs (a LOCK prefix, z = 1 with aaa = 000b): R97 gives those a meaning. -/

namespace Sys2Proof

/-- No legacy prefix twice and at most one segment override (R86). -/
def prefixesWellFormed (pre : List Prefix) : Bool := !repeatsPrefix pre && !hasTwoSegments pre

/-- r/m = 100b announces a SIB byte, and mod = 00b with 101b in r/m or base announces disp32 (R98, R99). -/
def AddrForm.wellFormed : AddrForm → Bool
  | .base n d     => n != 4 && !(n == 5 && d == .absent)
  | .ripRel _     => true
  | .sib _ _ b d  => !(b == 5 && d == .absent)
  | .sibAbs _ _ _ => true

/-- A register operand is always encodable (R82). -/
def RM.wellFormed : RM → Bool
  | .reg _ => true
  | .mem a => a.wellFormed

/-- Form 1 has none of 66, F2, F3 among its prefixes (R87). -/
def Legacy.wellFormed (e : Legacy) : Bool :=
  prefixesWellFormed e.pre && !e.pre.any Prefix.isMandatory && e.rm.wellFormed

/-- The prefixes and the memory operand can be encoded. -/
def Vex2.wellFormed (e : Vex2) : Bool := prefixesWellFormed e.pre && e.rm.wellFormed

/-- The prefixes and the memory operand can be encoded. -/
def Vex3.wellFormed (e : Vex3) : Bool := prefixesWellFormed e.pre && e.rm.wellFormed

/-- The prefixes and the memory operand can be encoded. -/
def Evex.wellFormed (e : Evex) : Bool := prefixesWellFormed e.pre && e.rm.wellFormed

/-- The fields can be encoded. -/
def Instr.fieldsWellFormed : Instr → Bool
  | .xorps e          => e.wellFormed
  | .vxorpsVex128C5 e => e.wellFormed
  | .vxorpsVex128C4 e => e.wellFormed
  | .vxorpsVex256C5 e => e.wellFormed
  | .vxorpsVex256C4 e => e.wellFormed
  | .vxorpsEvex128 e  => e.wellFormed
  | .vxorpsEvex256 e  => e.wellFormed
  | .vxorpsEvex512 e  => e.wellFormed

/-- The fields can be encoded, in at most 15 bytes (R102). -/
def Instr.wellFormed (i : Instr) : Bool := i.fieldsWellFormed && decide (i.len ≤ maxLen)

end Sys2Proof
end

