-- ==== Sys2Proof/Machine/Dispatch.lean ====
section
/-! DEFINITION. One arm per instruction. -/

namespace Sys2Proof.Machine

def exec (i : Instr) (s : State) : Host.Outcome State Fault Refusal :=
  match i with
  | .xorps e => Sys2Proof.Machine.execXorps e s
  | .vxorpsVex128C5 e => Sys2Proof.Machine.execVxorpsVex128C5 e s
  | .vxorpsVex128C4 e => Sys2Proof.Machine.execVxorpsVex128C4 e s
  | .vxorpsVex256C5 e => Sys2Proof.Machine.execVxorpsVex256C5 e s
  | .vxorpsVex256C4 e => Sys2Proof.Machine.execVxorpsVex256C4 e s
  | .vxorpsEvex128 e => Sys2Proof.Machine.execVxorpsEvex128 e s
  | .vxorpsEvex256 e => Sys2Proof.Machine.execVxorpsEvex256 e s
  | .vxorpsEvex512 e => Sys2Proof.Machine.execVxorpsEvex512 e s

end Sys2Proof.Machine
end

