-- ==== Sys2Proof/Machine/Step.lean ====
section
/-! DEFINITION. One step of the machine: fetch at pc, decode, run (R13, R64, R80, R206). -/

namespace Sys2Proof.Machine

/-- A recorded fault is never cleared (R183); bytes are decoded in 64-bit mode only (R104); the run is over at the end of
the code region (R206); else the instruction at pc runs. Every meaning advances the pc itself. That these stops come before the
faults of the fetch, and that the fetch and the decoder's verdict come before the refusal of a configuration that R6 excludes, which
only `exec` asks for, is DEDUCED, notes/assumptions/36.md -/
def step (s : State) : Host.Outcome State Fault Refusal :=
  match s.fault with
  | some r => .fault r
  | none =>
    if s.mode ≠ .mode64 then .refused .modeNotDecoded
    else if s.pc.toNat = s.code.base + s.code.size then .refused .endOfRun
    else if inRange s.pc.toNat s.code.base s.code.size = false then .refused .outsideCode
    else
      match decode s.fetch.1 with
      | .ok (i, _) => exec i s
      | .error r   => (s.rejected r s.fetch.2).outcome

/-- A launch of one instruction (R201, R202): the boot requirements are met and the instruction's bytes stand at pc
(notes/assumptions/6.md). -/
def State.withFetchWord (s : State) (nbits w : Nat) : State := s.boot.place (tableBytes nbits w)

end Sys2Proof.Machine
end

