-- ==== Sys2Proof/Safety.lean ====
section
/-! DEFINITION. What statements about the machine are made of: the operands of an instruction whatever its spelling, the
premises under which a form executes normally (R201, R202), what a completed step may change (R36), the invariant of the
state, and when a run is over (R206). -/

namespace Sys2Proof

/-- The form of an instruction (R2, R109). -/
def Instr.form : Instr → Form
  | .xorps _          => .sse
  | .vxorpsVex128C5 _ => .vex128
  | .vxorpsVex128C4 _ => .vex128
  | .vxorpsVex256C5 _ => .vex256
  | .vxorpsVex256C4 _ => .vex256
  | .vxorpsEvex128 _  => .evex128
  | .vxorpsEvex256 _  => .evex256
  | .vxorpsEvex512 _  => .evex512

/-- EVEX.b (R96); the other classes have no broadcast. -/
def Instr.bcast : Instr → Bool
  | .vxorpsEvex128 e => e.bc
  | .vxorpsEvex256 e => e.bc
  | .vxorpsEvex512 e => e.bc
  | _                => false

end Sys2Proof

namespace Sys2Proof.Machine

/-- The operands of an instruction (R83, R84, R85). -/
def operandsOf : Instr → Operands
  | .xorps e          => legacyOperands e
  | .vxorpsVex128C5 e => vex2Operands e
  | .vxorpsVex128C4 e => vex3Operands e
  | .vxorpsVex256C5 e => vex2Operands e
  | .vxorpsVex256C4 e => vex3Operands e
  | .vxorpsEvex128 e  => evexOperands .evex128 e
  | .vxorpsEvex256 e  => evexOperands .evex256 e
  | .vxorpsEvex512 e  => evexOperands .evex512 e

/-- The instruction's own prefixes or fields are a #UD condition (R86, R92, R97). -/
def illegalOf : Instr → Bool
  | .xorps e          => legacyIllegal e
  | .vxorpsVex128C5 e => vexIllegal e.pre
  | .vxorpsVex128C4 e => vexIllegal e.pre
  | .vxorpsVex256C5 e => vexIllegal e.pre
  | .vxorpsVex256C4 e => vexIllegal e.pre
  | .vxorpsEvex128 e  => evexIllegal e
  | .vxorpsEvex256 e  => evexIllegal e
  | .vxorpsEvex512 e  => evexIllegal e

/-- The number of bytes an instruction reads when its second source is memory (R50). -/
def readSize (i : Instr) : Nat := operandSize i.form i.bcast

/-- The address an instruction reads when its second source is the memory operand `m` (R99, R103). -/
def State.readAddr (s : State) (i : Instr) (m : MemRef) : Nat := (s.lin (operandsOf i) m).toNat

/-- The fields of an EVEX instruction (R93). -/
def evexOf : Instr → Option Evex
  | .vxorpsEvex128 e => some e
  | .vxorpsEvex256 e => some e
  | .vxorpsEvex512 e => some e
  | _                => none

/-- An instruction of the VEX class, forms 2 and 3 (R80). -/
def isVex : Instr → Bool
  | .vxorpsVex128C5 _ => true
  | .vxorpsVex128C4 _ => true
  | .vxorpsVex256C5 _ => true
  | .vxorpsVex256C4 _ => true
  | _                 => false

/-- The prefixes of an instruction (R86, R92, R97). -/
def prefixesOf : Instr → List Prefix
  | .xorps e          => e.pre
  | .vxorpsVex128C5 e => e.pre
  | .vxorpsVex128C4 e => e.pre
  | .vxorpsVex256C5 e => e.pre
  | .vxorpsVex256C4 e => e.pre
  | .vxorpsEvex128 e  => e.pre
  | .vxorpsEvex256 e  => e.pre
  | .vxorpsEvex512 e  => e.pre

/-- A form executes normally: a configuration of the model in 64-bit mode that has the form's feature flags, with the form
enabled (R2, R6, R30, R201, R202, R203). -/
def State.ready (s : State) (f : Form) : Bool :=
  s.cfg.valid && s.mode == .mode64 && admits s.cfg.features f && s.enabled f

/-- The n bytes at an address are plain memory that only the launch wrote (R60, R61, R66). -/
def State.ownBytes (s : State) (a n : Nat) : Bool := (List.range n).all (fun j => s.regionOf (a + j) == some .own)

/-- The n bytes at an address are declared as plain memory, own or shared (R60, R66). -/
def State.plainBytes (s : State) (a n : Nat) : Bool := (List.range n).all (fun j => (s.regionOf (a + j)).isSome)

/-- What a completed step leaves unchanged (R36): every vector register but `d`, the opmask and general registers, the
flags and MXCSR, all control state, every byte of memory, and the parameters of the step. -/
structure UnchangedBut (d : BitVec 5) (s t : State) : Prop where
  zmm    : ∀ n, n ≠ d → t.zreg n = s.zreg n
  k      : t.k = s.k
  x      : t.x = s.x
  eflags : t.eflags = s.eflags
  mxcsr  : t.mxcsr = s.mxcsr
  mode   : t.mode = s.mode
  cr0    : t.cr0 = s.cr0
  cr2    : t.cr2 = s.cr2
  cr4    : t.cr4 = s.cr4
  xcr0   : t.xcr0 = s.xcr0
  csBase : t.csBase = s.csBase
  fsBase : t.fsBase = s.fsBase
  gsBase : t.gsBase = s.gsBase
  fault  : t.fault = s.fault
  bytes  : ∀ a, memRead t.mem a = memRead s.mem a
  mem    : t.mem = s.mem
  map    : t.map = s.map
  xlat   : t.xlat = s.xlat
  code   : t.code = s.code
  cfg    : t.cfg = s.cfg

/-- An instruction meets no check before its reads and its next pc is in range (R27, R201). -/
structure Runnable (s : State) (i : Instr) : Prop where
  ready  : s.ready i.form = true
  legal  : illegalOf i = false
  nextPc : s.nextPcOk i.len = true

/-- The memory operand raises no exception: every byte canonical, form 1 aligned, no alignment check, no faulting
translation (R55, R56, R59). -/
structure OperandClear (s : State) (i : Instr) (m : MemRef) : Prop where
  canonical : canonicalRange s.cfg.va.bits (s.readAddr i m) (readSize i) = true
  aligned   : i.form = .sse → s.readAddr i m % 16 = 0
  unchecked : s.acFault i.form (s.readAddr i m) (readSize i) = false
  mapped    : s.translate (s.readAddr i m) (readSize i) .read = none

/-- How a completed step leaves everything but the value of its destination: the pc past the instruction, the given read
events in the history, no free value drawn, and the rest unchanged (R27, R36, R57). -/
structure CompletesWith (i : Instr) (s t : State) (events : List ReadEvent) : Prop where
  pc    : t.pc.toNat = s.pc.toNat + i.len
  rest  : UnchangedBut (operandsOf i).dest s t
  reads : t.reads = s.reads ++ events
  draws : t.draws = s.draws

/-- The 32-bit element in memory at an address, the byte at the address in bits 7:0 (R54). -/
def laneAt (m : List Host.Cell) (a : Nat) : Lane :=
  memRead m (a + 3) ++ memRead m (a + 2) ++ memRead m (a + 1) ++ memRead m a

/-- The one read event of an operand of n bytes in the launch's own memory (R50, R57). -/
def readOf (m : List Host.Cell) (a n : Nat) : ReadEvent := ⟨a, (List.range n).map (fun j => memRead m (a + j))⟩

/-- The 32-bit element of a byte string at an offset, the byte at the offset in bits 7:0 (R54). -/
def laneOf (bs : List Byte) (o : Nat) : Lane := bs.getD (o + 3) 0 ++ bs.getD (o + 2) 0 ++ bs.getD (o + 1) 0 ++ bs.getD o 0

/-- Element j of the second source, from the bytes an instruction read: the same four bytes for every j under EVEX.b, else
the four bytes from 4j (R54, R156). -/
def elementOf (i : Instr) (bs : List Byte) (j : Nat) : Lane := laneOf bs (if i.bcast then 0 else 4 * j)

/-- Element j of the destination is selected: no writemask, or mask bit j is 1 (R25, R155). -/
def selected (s : State) (e : Evex) (j : Nat) : Prop := e.aaa = 0 ∨ (s.kreg e.aaa).getLsbD j = true

/-- A displacement as a signed number, an 8-bit one scaled by n (R99, R100). -/
def dispInt (n : Nat) : Disp → Int
  | .absent => 0
  | .d8 d   => d.toInt * n
  | .d32 d  => d.toInt

/-- The scaled index as a number: none when `{X, index}` is 0100b (R98, R99). -/
def State.indexInt (s : State) (x : Bool) (index : BitVec 3) (scale : BitVec 2) : Int :=
  if num4 x index = 4 then 0 else (s.xreg (num4 x index)).toNat * 2 ^ scale.toNat

/-- The base of a memory operand is the general register `{B, n}` (R88, R90, R95). -/
def MemRef.baseIs (m : MemRef) (b : Bool) (n : BitVec 3) : Prop :=
  ∃ r, m.base = .gpr r ∧ r.toNat = 8 * b.toNat + n.toNat

/-- The index of a memory operand is the general register `{X, ix}` under a scale, and none when that number is 4 (R98). -/
def MemRef.indexIs (m : MemRef) (x : Bool) (ix : BitVec 3) (sc : BitVec 2) : Prop :=
  if 8 * x.toNat + ix.toNat = 4 then m.index = none
  else ∃ r, m.index = some (r, sc) ∧ r.toNat = 8 * x.toNat + ix.toNat

/-- The second source is memory, its base and index registers numbered from the extension bits X and B and the fields of
ModRM and SIB (R88, R98, R99). -/
def Operands.memoryIs (o : Operands) (x b : Bool) : AddrForm → Prop
  | .base n _       => ∃ m, o.src2 = .mem m ∧ m.baseIs b n ∧ m.index = none
  | .ripRel _       => ∃ m, o.src2 = .mem m ∧ m.base = .next ∧ m.index = none
  | .sib sc ix n _  => ∃ m, o.src2 = .mem m ∧ m.baseIs b n ∧ m.indexIs x ix sc
  | .sibAbs sc ix _ => ∃ m, o.src2 = .mem m ∧ m.base = .absent ∧ m.indexIs x ix sc

/-- The width A of address formation (R99). -/
def addrWidth (o : Operands) : Nat := if o.addr32 then 32 else 64

/-- An address that is not canonical for VA implemented bits: between the two halves, or past 2^64 - 1 (R59, R67). -/
def nonCanonical (va a : Nat) : Prop := (2 ^ (va - 1) ≤ a ∧ a < 2 ^ 64 - 2 ^ (va - 1)) ∨ 2 ^ 64 ≤ a

/-- The byte at an address can be fetched: it is in the code region, its address is canonical, and the translation oracle
answers ok (R59, R64, R206). -/
def State.fetchable (s : State) (a : Nat) : Prop :=
  inRange a s.code.base s.code.size = true ∧ canonical s.cfg.va.bits a = true ∧ s.translate a 1 .fetch = none

/-- These bytes stand at pc, and each of them can be fetched. -/
def State.fetches (s : State) (bs : List Byte) : Prop :=
  ∀ j < bs.length, s.fetchable (s.pc.toNat + j) ∧ bs[j]? = some (memRead s.mem (s.pc.toNat + j))

/-- Bytes of no instruction: the decoder rejects them as `why` whatever bytes follow, and wherever they stand at pc, at most
15 of them, with no fault recorded and in 64-bit mode, the step answers `out`. -/
structure NoInstruction (bs : List Byte) (why : Reject) (out : State → Host.Outcome State Fault Refusal) : Prop where
  decoded : ∀ rest, decode (bs ++ rest) = .error why
  stepped : ∀ s : State, s.fault = none → s.mode = .mode64 → bs.length ≤ maxLen → s.fetches bs → step s = out s

/-- The outcome of a step with every next state passed through a change of state. -/
def mapNext (g : State → State) : Host.Outcome State Fault Refusal → Host.Outcome State Fault Refusal
  | .next t    => .next (g t)
  | .fault r   => .fault r
  | .refused r => .refused r

/-- The invariant of the machine: a possible configuration (R6); vector registers have MAXVL bits and there are NVEC of
them (R20, R22); opmask registers have KW bits (R24); pc is canonical (R27); memory is in canonical form. -/
structure State.Inv (s : State) : Prop where
  config  : s.cfg.valid = true
  widths  : ∀ n : BitVec 5, s.zreg n >>> s.cfg.maxvl.bits = 0
  count   : ∀ n : BitVec 5, s.cfg.nvec ≤ n.toNat → s.zreg n = 0
  opmasks : ∀ n : BitVec 3, s.kreg n >>> s.cfg.kw.bits = 0
  nextPc  : canonical s.cfg.va.bits s.pc.toNat = true
  memory  : Memory.wf s.mem = true

/-- The run is over and the state final (R206). -/
def State.final (s : State) : Prop := s.pc.toNat = s.code.base + s.code.size ∧ s.fault = none

/-- What stands after a step: the next state, or the state before it with the fault recorded (R183). -/
def afterStep (s : State) : Host.Outcome State Fault Refusal → State
  | .next t    => t
  | .fault r   => s.recordFault r
  | .refused _ => s

end Sys2Proof.Machine
end

