-- ==== Sys2Proof/Certificates/Slice0/Obligations.lean ====
section
/-! DEFINITION. The statements for the provers. Each is a `def Obligations.<Name> : Prop`; OBLIGATIONS.json says which rule or
section of spec/ it rests on. -/

open Sys2Proof Sys2Proof.Machine

/-! ## Encoding -/

/-- One byte string of 95_test_vectors.md section 1.3 per row of the opcode table decodes to the instruction it spells. -/
def Obligations.ListedBytesDecode : Prop :=
  decode [0x45, 0x0F, 0x57, 0x44, 0x89, 0x10] = .ok (.xorps ⟨[.rex 5], 0, .mem (.sib 2 1 1 (.d8 0x10))⟩, []) ∧
  decode [0xC5, 0xE8, 0x57, 0xCB] = .ok (.vxorpsVex128C5 ⟨[], false, 2, 1, .reg 3⟩, []) ∧
  decode [0xC4, 0xE1, 0x68, 0x57, 0xCB] = .ok (.vxorpsVex128C4 ⟨[], false, false, false, false, 2, 1, .reg 3⟩, []) ∧
  decode [0x65, 0xC5, 0xEC, 0x57, 0x08] = .ok (.vxorpsVex256C5 ⟨[.seg .gs], false, 2, 1, .mem (.base 0 .absent)⟩, []) ∧
  decode [0xC4, 0x41, 0x04, 0x57, 0xC1] = .ok (.vxorpsVex256C4 ⟨[], true, false, true, false, 15, 0, .reg 1⟩, []) ∧
  decode [0x62, 0x81, 0x54, 0x85, 0x57, 0x64, 0xC8, 0x7F] =
    .ok (.vxorpsEvex128 ⟨[], false, true, true, true, 5, true, true, false, 5, 4, .mem (.sib 3 1 0 (.d8 0x7F))⟩, []) ∧
  decode [0x62, 0xF1, 0x6C, 0xAA, 0x57, 0xCB] =
    .ok (.vxorpsEvex256 ⟨[], false, false, false, false, 2, false, true, false, 2, 1, .reg 3⟩, []) ∧
  decode [0x62, 0x01, 0x0C, 0x40, 0x57, 0xFD] =
    .ok (.vxorpsEvex512 ⟨[], true, true, true, true, 14, true, false, false, 0, 7, .reg 5⟩, [])

/-- Every well-formed instruction, with every operand at every value its encoding admits, is decoded from its own bytes,
whatever bytes follow. -/
def Obligations.DecodeInvertsEncode : Prop :=
  ∀ (i : Instr) (rest : List Byte), i.wellFormed = true → decode (encode i ++ rest) = .ok (i, rest)

/-- Whatever bytes decode to an instruction are that instruction's own encoding followed by the rest, and the instruction is
well-formed: no bit of the bytes is dropped. -/
def Obligations.EncodeInvertsDecode : Prop :=
  ∀ (bs rest : List Byte) (i : Instr), decode bs = .ok (i, rest) → i.wellFormed = true ∧ encode i ++ rest = bs

/-- The bytes of a well-formed instruction match exactly one row of the opcode table, its own. -/
def Obligations.ExactlyItsRowMatches : Prop :=
  ∀ (i : Instr) (rest : List Byte), i.wellFormed = true →
    ∀ r ∈ opcodeRows, r.matchesBytes (encode i ++ rest) = true ↔ r.mnemonic = i.mnemonic

/-- A decoded instruction has 3 to 15 bytes, and the decoder consumes exactly that many. -/
def Obligations.DecodedLengthBounds : Prop :=
  ∀ (bs rest : List Byte) (i : Instr), decode bs = .ok (i, rest) →
    bs.length = i.len + rest.length ∧ 3 ≤ i.len ∧ i.len ≤ 15

/-- Register numbers: `{R, reg}`, `{B, rm}` by the REX byte just before the opcode; `{R, reg}`, vvvv, `{B, rm}` in VEX, X = B = 0
in the two-byte spelling; `{R', R, reg}`, `{V', vvvv}`, `{X, B, rm}` in EVEX; in every class `{B, base}` and `{X, index}` for the
registers of a memory operand. -/
def Obligations.OperandNumbersAssembled : Prop :=
  (∀ (x : Bool) (n : BitVec 3), (num4 x n).toNat = 8 * x.toNat + n.toNat) ∧
  (∀ (e : Legacy) (ps : List Prefix) (w : BitVec 4), e.pre = ps ++ [.rex w] →
    (legacyOperands e).dest.toNat = 8 * (w.getLsbD 2).toNat + e.reg.toNat ∧
    (legacyOperands e).src1 = (legacyOperands e).dest ∧
    (∀ n, e.rm = .reg n → ∃ r, (legacyOperands e).src2 = .reg r ∧ r.toNat = 8 * (w.getLsbD 0).toNat + n.toNat) ∧
    ∀ a, e.rm = .mem a → (legacyOperands e).memoryIs (w.getLsbD 1) (w.getLsbD 0) a) ∧
  (∀ (e : Legacy), (∀ (ps : List Prefix) (w : BitVec 4), e.pre ≠ ps ++ [.rex w]) →
    (legacyOperands e).dest.toNat = e.reg.toNat ∧ (legacyOperands e).src1 = (legacyOperands e).dest ∧
    (∀ n, e.rm = .reg n → ∃ r, (legacyOperands e).src2 = .reg r ∧ r.toNat = n.toNat) ∧
    ∀ a, e.rm = .mem a → (legacyOperands e).memoryIs false false a) ∧
  (∀ (e : Vex2), (vex2Operands e).dest.toNat = 8 * e.r.toNat + e.reg.toNat ∧
    (vex2Operands e).src1.toNat = e.vvvv.toNat ∧
    (∀ n, e.rm = .reg n → ∃ r, (vex2Operands e).src2 = .reg r ∧ r.toNat = n.toNat) ∧
    ∀ a, e.rm = .mem a → (vex2Operands e).memoryIs false false a) ∧
  (∀ (e : Vex3), (vex3Operands e).dest.toNat = 8 * e.r.toNat + e.reg.toNat ∧
    (vex3Operands e).src1.toNat = e.vvvv.toNat ∧
    (∀ n, e.rm = .reg n → ∃ r, (vex3Operands e).src2 = .reg r ∧ r.toNat = 8 * e.b.toNat + n.toNat) ∧
    ∀ a, e.rm = .mem a → (vex3Operands e).memoryIs e.x e.b a) ∧
  (∀ (f : Form) (e : Evex), (evexOperands f e).dest.toNat = 16 * e.r2.toNat + 8 * e.r.toNat + e.reg.toNat ∧
    (evexOperands f e).src1.toNat = 16 * e.v2.toNat + e.vvvv.toNat ∧
    (∀ n, e.rm = .reg n → ∃ r, (evexOperands f e).src2 = .reg r ∧ r.toNat = 16 * e.x.toNat + 8 * e.b.toNat + n.toNat) ∧
    ∀ a, e.rm = .mem a → (evexOperands f e).memoryIs e.x e.b a)

/-- In a configuration of the model that has a form's feature flags, every vector register an instruction of that form names
exists. -/
def Obligations.NamedRegistersExist : Prop :=
  ∀ (i : Instr) (c : Config), c.valid = true → admits c.features i.form = true →
    (operandsOf i).dest.toNat < c.nvec ∧ (operandsOf i).src1.toNat < c.nvec ∧
    ∀ n, (operandsOf i).src2 = .reg n → n.toNat < c.nvec

/-- Bytes of other instructions are refused by name, by the decoder and by the step: 66, F2 or F3 among the prefixes of `0F 57`;
and, behind segment overrides and 67 only, pp other than 00b or a map other than 0F in VEX, and the same in EVEX with the fixed
bits right. Where a second defect gives #UD (LOCK before `0F 57`; L'L = 11b, or z = 1 with aaa = 000b, or b = 1 with mod = 11b in
EVEX) that the refusal comes first is the model's choice: notes/assumptions/22.md; so is that it comes in a configuration R6
excludes too: notes/assumptions/36.md. -/
def Obligations.OtherInstructionsRefused : Prop :=
  ∀ (ps : List Prefix) (rm : RM) (g : BitVec 3), rm.wellFormed = true →
    (∀ (b : Byte) (p : Prefix) (qs : List Prefix), b = 0x66 ∨ b = 0xF2 ∨ b = 0xF3 → Prefix.ofByte b = some p →
      prefixesWellFormed (qs ++ p :: ps) = true →
      NoInstruction (qs.map Prefix.toByte ++ b :: ps.map Prefix.toByte ++ 0x0F :: 0x57 :: rm.bytes g) .notXorps
        (fun _ => .refused .notXorps)) ∧
    (prefixesWellFormed ps = true → (∀ p ∈ ps, p = .addrSize ∨ ∃ sg, p = .seg sg) →
      (∀ v1 : Byte, v1.extractLsb' 0 2 ≠ 0 →
        NoInstruction (ps.map Prefix.toByte ++ 0xC5 :: v1 :: 0x57 :: rm.bytes g) .notVxorps (fun _ => .refused .notVxorps)) ∧
      (∀ v1 v2 : Byte, v2.extractLsb' 0 2 ≠ 0 ∨ v1.extractLsb' 0 5 ≠ 1 →
        NoInstruction (ps.map Prefix.toByte ++ 0xC4 :: v1 :: v2 :: 0x57 :: rm.bytes g) .notVxorps
          (fun _ => .refused .notVxorps)) ∧
      (∀ p0 p1 p2 : Byte, p0.getLsbD 3 = false → p1.getLsbD 2 = true →
        p1.extractLsb' 0 2 ≠ 0 ∨ p0.extractLsb' 0 3 ≠ 1 →
        NoInstruction (ps.map Prefix.toByte ++ 0x62 :: p0 :: p1 :: p2 :: 0x57 :: rm.bytes g) .notVxorps
          (fun _ => .refused .notVxorps)))

/-- EVEX bytes of map 0F with pp = 00b and opcode 57 whose fixed bits are wrong, whose W is 1 or whose L'L is 11b, behind any
prefixes that R86 does not refuse, decode to no instruction, and the step raises #UD where they stand at pc (in a configuration R6
excludes too, by the model's choice: notes/assumptions/36.md). -/
def Obligations.EvexReservedBitsRaiseInvalidOpcode : Prop :=
  ∀ (ps : List Prefix) (rm : RM) (g : BitVec 3) (p0 p1 p2 : Byte), prefixesWellFormed ps = true → rm.wellFormed = true →
    p0.extractLsb' 0 3 = 1 → p1.extractLsb' 0 2 = 0 →
    (p0.getLsbD 3 = true ∨ p1.getLsbD 2 = false ∨ p1.getLsbD 7 = true ∨ p2.extractLsb' 5 2 = 3) →
    NoInstruction (ps.map Prefix.toByte ++ 0x62 :: p0 :: p1 :: p2 :: 0x57 :: rm.bytes g) .invalidOpcode
      (fun s => .fault (.exception .ud s.pc))

/-! ## Addresses -/

/-- The effective address is the sum, over the integers, of base, scaled index and signed displacement, modulo 2^A: for a base
register, for a RIP-relative operand (the next instruction's address), and for a SIB byte with and without a base. A is 32 for an
instruction with a 67 prefix, else 64; the registers are those numbered 8B + base and 8X + index. -/
def Obligations.EffectiveAddressIsIntegerSum : Prop :=
  (∀ (s : State) (o : Operands) (x b : Bool) (n : Nat), n ≤ 64 →
    (∀ r d, ((s.ea o (memRef x b n (.base r d))).toNat : Int) =
      ((s.xreg (num4 b r)).toNat + dispInt n d) % 2 ^ addrWidth o) ∧
    (∀ d : BitVec 32, ((s.ea o (memRef x b n (.ripRel d))).toNat : Int) =
      (s.pc.toNat + o.len + d.toInt) % 2 ^ addrWidth o) ∧
    (∀ sc ix r d, ((s.ea o (memRef x b n (.sib sc ix r d))).toNat : Int) =
      ((s.xreg (num4 b r)).toNat + s.indexInt x ix sc + dispInt n d) % 2 ^ addrWidth o) ∧
    (∀ sc ix d, ((s.ea o (memRef x b n (.sibAbs sc ix d))).toNat : Int) =
      (s.indexInt x ix sc + d.toInt) % 2 ^ addrWidth o)) ∧
  (∀ i : Instr, (addrWidth (operandsOf i) = if .addrSize ∈ prefixesOf i then 32 else 64) ∧ (operandsOf i).len = i.len) ∧
  (∀ (e : Bool) (n : BitVec 3), (num4 e n).toNat = 8 * e.toNat + n.toNat)

/-- The scale of an 8-bit displacement: N = 16, 32, 64 by vector length, 4 under EVEX.b, in the EVEX class; none in the legacy
and VEX classes. -/
def Obligations.Disp8ScaleByTuple : Prop :=
  (∀ (e : Evex) (a : AddrForm), e.rm = .mem a →
    (evexOperands .evex128 e).src2 = .mem (memRef e.x e.b (if e.bc then 4 else 16) a) ∧
    (evexOperands .evex256 e).src2 = .mem (memRef e.x e.b (if e.bc then 4 else 32) a) ∧
    (evexOperands .evex512 e).src2 = .mem (memRef e.x e.b (if e.bc then 4 else 64) a)) ∧
  (∀ (e : Vex2) (a : AddrForm), e.rm = .mem a → (vex2Operands e).src2 = .mem (memRef false false 1 a)) ∧
  (∀ (e : Vex3) (a : AddrForm), e.rm = .mem a → (vex3Operands e).src2 = .mem (memRef e.x e.b 1 a)) ∧
  (∀ (e : Legacy) (a : AddrForm), e.rm = .mem a →
    (legacyOperands e).src2 = .mem (memRef ((liveRex e.pre).getLsbD 1) ((liveRex e.pre).getLsbD 0) 1 a))

/-- The linear address: the FS or GS base is added modulo 2^64 under a 64 or 65 prefix, and the bases of CS, DS, ES and SS
count as 0. An instruction's override is the segment prefix among its prefixes, if there is one. -/
def Obligations.LinearAddressAddsSegmentBase : Prop :=
  (∀ (s : State) (o : Operands) (m : MemRef),
    (o.override = some .fs → (s.lin o m).toNat = ((s.ea o m).toNat + s.fsBase.toNat) % 2 ^ 64) ∧
    (o.override = some .gs → (s.lin o m).toNat = ((s.ea o m).toNat + s.gsBase.toNat) % 2 ^ 64) ∧
    (o.override ≠ some .fs → o.override ≠ some .gs → s.lin o m = s.ea o m)) ∧
  (∀ (s : State) (i : Instr) (m : MemRef), i.wellFormed = true →
    (∀ g, (operandsOf i).override = some g ↔ .seg g ∈ prefixesOf i) ∧
    (.seg .fs ∈ prefixesOf i → s.readAddr i m = ((s.ea (operandsOf i) m).toNat + s.fsBase.toNat) % 2 ^ 64) ∧
    (.seg .gs ∈ prefixesOf i → s.readAddr i m = ((s.ea (operandsOf i) m).toNat + s.gsBase.toNat) % 2 ^ 64) ∧
    (.seg .fs ∉ prefixesOf i → .seg .gs ∉ prefixesOf i → s.readAddr i m = (s.ea (operandsOf i) m).toNat))

/-! ## The step -/

/-- When the bytes at pc are those of a well-formed instruction, can be fetched and lie in the code region, the step is `exec`
of that instruction at the same state: the meaning itself advances the pc, and the step adds nothing. -/
def Obligations.StepRunsDecodedInstruction : Prop :=
  ∀ (s : State) (i : Instr), i.wellFormed = true → s.fault = none → s.mode = .mode64 →
    (∀ j < i.len, inRange (s.pc.toNat + j) s.code.base s.code.size = true ∧
      canonical s.cfg.va.bits (s.pc.toNat + j) = true ∧ s.translate (s.pc.toNat + j) 1 .fetch = none ∧
      (encode i)[j]? = some (memRead s.mem (s.pc.toNat + j))) →
    step s = exec i s

/-- Faults of the fetch come first. When the bytes of an instruction can be fetched up to its byte k, and byte k is the first that
cannot: #GP(0) if its address is not canonical or the oracle answers a segment fault; #PF(code) with bit 4 set and CR2's value
that byte's address if the oracle answers a page fault (code bits above 4 as the oracle answers: notes/assumptions/35.md). An
instruction of more than 15 bytes whose first 15 can be fetched is #GP(0) (only runs of REX bytes make one so long:
notes/assumptions/19.md). The fetch is byte by byte: notes/assumptions/18.md; it comes before the refusal of a configuration R6
excludes: notes/assumptions/36.md. -/
def Obligations.FetchFaultsComeFirst : Prop :=
  ∀ (s : State) (i : Instr), i.fieldsWellFormed = true → s.fault = none → s.mode = .mode64 →
    (∀ k : Nat, k < i.len → k < 15 → s.fetches ((encode i).take k) →
      inRange (s.pc.toNat + k) s.code.base s.code.size = true →
      (nonCanonical s.cfg.va.bits (s.pc.toNat + k) → step s = .fault (.exception .gp s.pc)) ∧
      (∀ x : XlatEntry, canonical s.cfg.va.bits (s.pc.toNat + k) = true →
        s.translate (s.pc.toNat + k) 1 .fetch = some x →
        (x.answer = .segment → step s = .fault (.exception .gp s.pc)) ∧
        (∀ (p u r : Bool) (up : BitVec 27), x.answer = .page p u r up → ∃ (code : BitVec 32) (addr : Word),
          step s = .fault (.exception (.pf code addr) s.pc) ∧ addr.toNat = s.pc.toNat + k ∧
          code.getLsbD 0 = p ∧ code.getLsbD 1 = false ∧ code.getLsbD 2 = u ∧ code.getLsbD 3 = r ∧
          code.getLsbD 4 = true ∧ code.extractLsb' 5 27 = up))) ∧
    (15 < i.len → s.fetches ((encode i).take 15) → step s = .fault (.exception .gp s.pc))

/-- A recorded fault is never cleared and no step leaves it. -/
def Obligations.RecordedFaultEndsRun : Prop :=
  ∀ (s : State) (r : Fault), step (s.recordFault r) = .fault r ∧ afterStep (s.recordFault r) (step (s.recordFault r)) = s.recordFault r

/-- Bytes are decoded in 64-bit mode only, and at the end of the code region with no fault recorded the run is over. That
both come before the fetch, and the mode before the end, is the model's choice: notes/assumptions/36.md. -/
def Obligations.OtherModesAndEndOfRunStop : Prop :=
  (∀ s : State, s.fault = none → s.mode ≠ .mode64 → step s = .refused .modeNotDecoded) ∧
  (∀ s : State, s.mode = .mode64 → s.final → step s = .refused .endOfRun)

/-! ## Checks before the reads -/

/-- #UD of form 1, in 64-bit mode: exactly a LOCK prefix, CPUID SSE 0, CR0.EM = 1, or CR4.OSFXSR = 0. -/
def Obligations.InvalidOpcodeFormOne : Prop :=
  ∀ (e : Legacy) (s : State), s.cfg.valid = true → s.mode = .mode64 →
    (exec (.xorps e) s = .fault (.exception .ud s.pc) ↔
      .lock ∈ e.pre ∨ s.cfg.features.sse = false ∨ s.cr0.getLsbD 2 = true ∨ s.cr4.getLsbD 9 = false)

/-- #UD of forms 2 and 3: in 64-bit mode exactly a LOCK, 66, F2, F3 or REX prefix, CPUID AVX 0, CR4.OSXSAVE = 0, or XCR0 bits
2:1 not 11b; and always in real-address and virtual-8086 mode. -/
def Obligations.InvalidOpcodeVex : Prop :=
  ∀ (i : Instr) (s : State), isVex i = true → s.cfg.valid = true →
    (s.mode = .mode64 → (exec i s = .fault (.exception .ud s.pc) ↔
      (∃ p ∈ prefixesOf i, p = .lock ∨ p = .opSize ∨ p = .repne ∨ p = .rep ∨ ∃ w, p = .rex w) ∨
        s.cfg.features.avx = false ∨ s.cr4.getLsbD 18 = false ∨
        ¬ (s.xcr0.getLsbD 1 = true ∧ s.xcr0.getLsbD 2 = true))) ∧
    (s.mode = .real ∨ s.mode = .virtual8086 → exec i s = .fault (.exception .ud s.pc))

/-- #UD of forms 4, 5 and 6: in 64-bit mode exactly a LOCK, 66, F2, F3 or REX prefix, a needed CPUID flag 0, CR4.OSXSAVE = 0,
XCR0 bits 2:1 or 7:5 not all ones, z = 1 with aaa = 000b, or b = 1 with a register operand; and always in real-address and
virtual-8086 mode. -/
def Obligations.InvalidOpcodeEvex : Prop :=
  ∀ (i : Instr) (e : Evex) (s : State), evexOf i = some e → s.cfg.valid = true →
    (s.mode = .mode64 → (exec i s = .fault (.exception .ud s.pc) ↔
      (∃ p ∈ e.pre, p = .lock ∨ p = .opSize ∨ p = .repne ∨ p = .rep ∨ ∃ w, p = .rex w) ∨
        s.cfg.features.avx512f = false ∨ s.cfg.features.avx512dq = false ∨
        (i.form ≠ .evex512 ∧ s.cfg.features.avx512vl = false) ∨ s.cr4.getLsbD 18 = false ∨
        ¬ (s.xcr0.getLsbD 1 = true ∧ s.xcr0.getLsbD 2 = true) ∨
        ¬ (s.xcr0.getLsbD 5 = true ∧ s.xcr0.getLsbD 6 = true ∧ s.xcr0.getLsbD 7 = true) ∨
        (e.z = true ∧ e.aaa = 0) ∨ (e.bc = true ∧ ∃ n, e.rm = .reg n))) ∧
    (s.mode = .real ∨ s.mode = .virtual8086 → exec i s = .fault (.exception .ud s.pc))

/-- EVEX.b = 1 with a register second source raises #UD, whatever else holds, in 64-bit mode. -/
def Obligations.BroadcastBitWithRegisterRaises : Prop :=
  ∀ (i : Instr) (e : Evex) (n : BitVec 3) (s : State), evexOf i = some e → e.bc = true → e.rm = .reg n →
    s.cfg.valid = true → s.mode = .mode64 → exec i s = .fault (.exception .ud s.pc)

/-- #NM, every form, in 64-bit mode: exactly when CR0.TS = 1 and none of the #UD conditions holds. -/
def Obligations.DeviceNotAvailableExactly : Prop :=
  ∀ (i : Instr) (s : State), s.cfg.valid = true → s.mode = .mode64 →
    (exec i s = .fault (.exception .nm s.pc) ↔ s.cr0.getLsbD 3 = true ∧ exec i s ≠ .fault (.exception .ud s.pc))

/-- A configuration that R6 excludes is not run (before any exception: notes/assumptions/36.md), and in a mode that is decoded
nowhere (neither 64-bit nor one in which VEX and EVEX forms are #UD) every form is refused. -/
def Obligations.OutsideTheModelRefused : Prop :=
  ∀ (i : Instr) (s : State),
    (s.cfg.valid = false → exec i s = .refused .notAConfiguration) ∧
    (s.cfg.valid = true → s.mode = .protected32 ∨ s.mode = .compatibility → exec i s = .refused .modeNotDecoded)

/-- Meeting the boot requirements makes every form that the configuration admits execute normally. -/
def Obligations.BootMakesFormsReady : Prop :=
  ∀ (s : State) (f : Form), s.cfg.valid = true → admits s.cfg.features f = true → s.boot.ready f = true

/-! ## Faults of the memory operand -/

/-- A byte of the memory operand at an address that is not canonical: #SS(0) when the operand's segment is SS, else #GP(0). The
segment is the override if there is one, else SS for a base of RSP or RBP, else DS. Two of the model's choices are in it: an
override replaces a default of SS (notes/assumptions/23.md), and the address that must be canonical is the linear one, after the
FS or GS base is added, not the effective one (notes/assumptions/24.md). An operand in undeclared memory raises too:
notes/assumptions/36.md. -/
def Obligations.NonCanonicalOperandFaults : Prop :=
  ∀ (i : Instr) (s : State) (m : MemRef), s.ready i.form = true → illegalOf i = false → (operandsOf i).src2 = .mem m →
    (∃ j < readSize i, nonCanonical s.cfg.va.bits (s.readAddr i m + j)) →
    exec i s = .fault (.exception
      (if (operandsOf i).override = some .ss ∨
          ((operandsOf i).override = none ∧ (m.base = .gpr 4 ∨ m.base = .gpr 5)) then .ss else .gp) s.pc)

/-- Form 1 raises #GP(0) for a canonical operand whose linear address is not a multiple of 16; forms 2 to 6 raise no #GP(0)
for a canonical operand that the translation oracle lets through, aligned or not. -/
def Obligations.OnlyFormOneFaultsOnAlignment : Prop :=
  ∀ (i : Instr) (s : State) (m : MemRef), s.ready i.form = true → illegalOf i = false → (operandsOf i).src2 = .mem m →
    canonicalRange s.cfg.va.bits (s.readAddr i m) (readSize i) = true →
    (i.form = .sse → s.readAddr i m % 16 ≠ 0 → exec i s = .fault (.exception .gp s.pc)) ∧
    (i.form ≠ .sse → s.translate (s.readAddr i m) (readSize i) .read = none → exec i s ≠ .fault (.exception .gp s.pc))

/-- #AC(0) as the model takes it (notes/assumptions/9.md): for an operand of forms 2 to 6 that is canonical and not aligned to its
size, with CR0.AM and EFLAGS.AC set (bit 18 of each, notes/assumptions/8.md), exactly where `ac_check` answers true for a read of
that size; never with either bit clear or the operand aligned. An operand in undeclared memory raises too
(notes/assumptions/36.md), and one for which the oracle answers #SS(0) or #GP(0) (notes/assumptions/37.md). -/
def Obligations.AlignmentCheckByParameter : Prop :=
  ∀ (i : Instr) (s : State) (m : MemRef), s.ready i.form = true → illegalOf i = false → (operandsOf i).src2 = .mem m →
    canonicalRange s.cfg.va.bits (s.readAddr i m) (readSize i) = true → i.form ≠ .sse →
    (exec i s = .fault (.exception .ac s.pc) ↔
      s.cr0.getLsbD 18 = true ∧ s.eflags.getLsbD 18 = true ∧ s.readAddr i m % readSize i ≠ 0 ∧
        ∃ x ∈ s.cfg.acCheck, x.form = i.form ∧ x.read = readSize i ∧ x.base ≤ s.readAddr i m ∧ s.readAddr i m < x.base + x.size)

/-- #PF(code): when the operand passes the checks before it and every faulting range it touches is a page fault, and there is one,
the step raises #PF for one of the touched ranges, with code bits 0, 2, 3 that range's, bits 1 and 4 zero and the bits above as
that range answers (notes/assumptions/35.md), whatever a writemask selects. CR2's value is a byte of the operand in that range
(the lowest one: notes/assumptions/12.md). An operand in undeclared memory raises too: notes/assumptions/36.md. -/
def Obligations.PageFaultOnOperand : Prop :=
  ∀ (i : Instr) (s : State) (m : MemRef), s.ready i.form = true → illegalOf i = false → (operandsOf i).src2 = .mem m →
    canonicalRange s.cfg.va.bits (s.readAddr i m) (readSize i) = true →
    (i.form = .sse → s.readAddr i m % 16 = 0) → s.acFault i.form (s.readAddr i m) (readSize i) = false →
    (∃ x ∈ s.xlat, x.touches (s.readAddr i m) (readSize i) .read = true) →
    (∀ x ∈ s.xlat, x.touches (s.readAddr i m) (readSize i) .read = true → ∃ p u r up, x.answer = .page p u r up) →
    ∃ x ∈ s.xlat, x.touches (s.readAddr i m) (readSize i) .read = true ∧ ∃ (p u r : Bool) (up : BitVec 27)
      (code : BitVec 32) (addr : Word), x.answer = .page p u r up ∧ exec i s = .fault (.exception (.pf code addr) s.pc) ∧
      code.getLsbD 0 = p ∧ code.getLsbD 1 = false ∧ code.getLsbD 2 = u ∧ code.getLsbD 3 = r ∧ code.getLsbD 4 = false ∧
      code.extractLsb' 5 27 = up ∧
      s.readAddr i m ≤ addr.toNat ∧ addr.toNat < s.readAddr i m + readSize i ∧
      x.base ≤ addr.toNat ∧ addr.toNat < x.base + x.size

/-- A read of an address the launch memory does not declare as plain memory is refused by name, when the operand raises nothing;
before the refusal of a next pc out of range, by the model's choice (notes/assumptions/36.md), and whatever a writemask selects
(notes/assumptions/28.md). -/
def Obligations.UndeclaredMemoryRefused : Prop :=
  ∀ (i : Instr) (s : State) (m : MemRef), s.ready i.form = true → illegalOf i = false → (operandsOf i).src2 = .mem m →
    OperandClear s i m → (∃ j < readSize i, s.regionOf (s.readAddr i m + j) = none) →
    exec i s = .refused .undeclaredMemory

/-- A completed instruction with a memory operand had every byte of the operand readable, whatever its writemask selects:
canonical, let through by the oracle, declared as plain memory (for the last, the model's reading: notes/assumptions/28.md). -/
def Obligations.WholeOperandReadable : Prop :=
  ∀ (i : Instr) (s t : State) (m : MemRef), (operandsOf i).src2 = .mem m → exec i s = .next t →
    ∀ j < readSize i, ¬ nonCanonical s.cfg.va.bits (s.readAddr i m + j) ∧
      (∀ x ∈ s.xlat, x.access = .read → ¬ (x.base ≤ s.readAddr i m + j ∧ s.readAddr i m + j < x.base + x.size)) ∧
      (s.regionOf (s.readAddr i m + j)).isSome = true

/-! ## Results -/

/-- XORPS with a register second source completes: elements 0 to 3 of the destination become their XOR with the second source's,
elements 4 to 15 keep their value; nothing is read from memory and nothing else changes. -/
def Obligations.XorpsRegisterResult : Prop :=
  ∀ (e : Legacy) (s : State) (n : BitVec 5), (legacyOperands e).src2 = .reg n → Runnable s (.xorps e) →
    ∃ t, exec (.xorps e) s = .next t ∧ CompletesWith (.xorps e) s t [] ∧
      ∀ j < 16, lane (t.zreg (legacyOperands e).dest) j =
        if j < 4 then lane (s.zreg (legacyOperands e).dest) j ^^^ lane (s.zreg n) j
        else lane (s.zreg (legacyOperands e).dest) j

/-- XORPS with a 16-byte aligned operand in the launch's own memory completes: elements 0 to 3 of the destination become their
XOR with the memory's little-endian elements, elements 4 to 15 keep their value. -/
def Obligations.XorpsMemoryResult : Prop :=
  ∀ (e : Legacy) (s : State) (m : MemRef), (legacyOperands e).src2 = .mem m → Runnable s (.xorps e) →
    OperandClear s (.xorps e) m → s.ownBytes (s.readAddr (.xorps e) m) 16 = true →
    ∃ t, exec (.xorps e) s = .next t ∧
      CompletesWith (.xorps e) s t [readOf s.mem (s.readAddr (.xorps e) m) 16] ∧
      ∀ j < 16, lane (t.zreg (legacyOperands e).dest) j =
        if j < 4 then lane (s.zreg (legacyOperands e).dest) j ^^^ laneAt s.mem (s.readAddr (.xorps e) m + 4 * j)
        else lane (s.zreg (legacyOperands e).dest) j

/-- VXORPS in the four VEX rows with a register second source completes: the destination's elements below KL (4 or 8) are the
XOR of the two sources', those above are zero. -/
def Obligations.VexRegisterResult : Prop :=
  ∀ (i : Instr) (s : State) (n : BitVec 5), isVex i = true → (operandsOf i).src2 = .reg n → Runnable s i →
    ∃ t, exec i s = .next t ∧ CompletesWith i s t [] ∧
      ∀ j < 16, lane (t.zreg (operandsOf i).dest) j =
        if j < i.form.kl then lane (s.zreg (operandsOf i).src1) j ^^^ lane (s.zreg n) j else 0

/-- VXORPS in the four VEX rows with an operand in the launch's own memory, aligned or not, completes: the destination's
elements below KL are the XOR of the first source's and the memory's, those above are zero. -/
def Obligations.VexMemoryResult : Prop :=
  ∀ (i : Instr) (s : State) (m : MemRef), isVex i = true → (operandsOf i).src2 = .mem m → Runnable s i →
    OperandClear s i m → s.ownBytes (s.readAddr i m) (4 * i.form.kl) = true →
    ∃ t, exec i s = .next t ∧ CompletesWith i s t [readOf s.mem (s.readAddr i m) (4 * i.form.kl)] ∧
      ∀ j < 16, lane (t.zreg (operandsOf i).dest) j =
        if j < i.form.kl then lane (s.zreg (operandsOf i).src1) j ^^^ laneAt s.mem (s.readAddr i m + 4 * j) else 0

/-- VXORPS in the three EVEX rows with a register second source completes: a selected element is the XOR; an unselected one is
zero under zeroing-masking and keeps its value under merging-masking; elements at KL and above are zero whatever the mask. -/
def Obligations.EvexRegisterResult : Prop :=
  ∀ (i : Instr) (e : Evex) (s : State) (n : BitVec 5), evexOf i = some e → (operandsOf i).src2 = .reg n → Runnable s i →
    ∃ t, exec i s = .next t ∧ CompletesWith i s t [] ∧
      ∀ j < 16,
        (j < i.form.kl → selected s e j →
          lane (t.zreg (operandsOf i).dest) j = lane (s.zreg (operandsOf i).src1) j ^^^ lane (s.zreg n) j) ∧
        (j < i.form.kl → ¬ selected s e j →
          lane (t.zreg (operandsOf i).dest) j = if e.z = true then 0 else lane (s.zreg (operandsOf i).dest) j) ∧
        (i.form.kl ≤ j → lane (t.zreg (operandsOf i).dest) j = 0)

/-- VXORPS in the three EVEX rows with a full-width operand (EVEX.b = 0) in the launch's own memory completes, element j of the
second source being the four bytes at the operand's address plus 4j. -/
def Obligations.EvexMemoryResult : Prop :=
  ∀ (i : Instr) (e : Evex) (s : State) (m : MemRef), evexOf i = some e → e.bc = false → (operandsOf i).src2 = .mem m →
    Runnable s i → OperandClear s i m → s.ownBytes (s.readAddr i m) (4 * i.form.kl) = true →
    ∃ t, exec i s = .next t ∧ CompletesWith i s t [readOf s.mem (s.readAddr i m) (4 * i.form.kl)] ∧
      ∀ j < 16,
        (j < i.form.kl → selected s e j → lane (t.zreg (operandsOf i).dest) j =
          lane (s.zreg (operandsOf i).src1) j ^^^ laneAt s.mem (s.readAddr i m + 4 * j)) ∧
        (j < i.form.kl → ¬ selected s e j →
          lane (t.zreg (operandsOf i).dest) j = if e.z = true then 0 else lane (s.zreg (operandsOf i).dest) j) ∧
        (i.form.kl ≤ j → lane (t.zreg (operandsOf i).dest) j = 0)

/-- VXORPS in the three EVEX rows with a broadcast operand (EVEX.b = 1) in the launch's own memory completes with one read of four
bytes, whose value is the second source of every element. -/
def Obligations.EvexBroadcastResult : Prop :=
  ∀ (i : Instr) (e : Evex) (s : State) (m : MemRef), evexOf i = some e → e.bc = true → (operandsOf i).src2 = .mem m →
    Runnable s i → OperandClear s i m → s.ownBytes (s.readAddr i m) 4 = true →
    ∃ t, exec i s = .next t ∧ CompletesWith i s t [readOf s.mem (s.readAddr i m) 4] ∧
      ∀ j < 16,
        (j < i.form.kl → selected s e j → lane (t.zreg (operandsOf i).dest) j =
          lane (s.zreg (operandsOf i).src1) j ^^^ laneAt s.mem (s.readAddr i m)) ∧
        (j < i.form.kl → ¬ selected s e j →
          lane (t.zreg (operandsOf i).dest) j = if e.z = true then 0 else lane (s.zreg (operandsOf i).dest) j) ∧
        (i.form.kl ≤ j → lane (t.zreg (operandsOf i).dest) j = 0)

/-- Every instruction with an operand in declared plain memory, the launch's own or shared with other agents, completes with one
read event whose bytes are the memory's wherever the region is the launch's own; a byte of shared memory is any value. The
destination is the form's XOR with the value of the bytes of that read event: elements 0 to 3 under form 1, all of it with zeros
above under VEX, by the writemask under EVEX, every element from the same four bytes under EVEX.b. -/
def Obligations.PlainMemoryOperandCompletes : Prop :=
  ∀ (i : Instr) (s : State) (m : MemRef), (operandsOf i).src2 = .mem m → Runnable s i → OperandClear s i m →
    s.plainBytes (s.readAddr i m) (readSize i) = true →
    ∃ t bs, exec i s = .next t ∧ t.pc.toNat = s.pc.toNat + i.len ∧ UnchangedBut (operandsOf i).dest s t ∧
      t.reads = s.reads ++ [⟨s.readAddr i m, bs⟩] ∧ bs.length = readSize i ∧
      (∀ j < readSize i, s.regionOf (s.readAddr i m + j) = some .own → bs.getD j 0 = memRead s.mem (s.readAddr i m + j)) ∧
      ∀ j < 16,
        (i.form = .sse → lane (t.zreg (operandsOf i).dest) j =
          if j < 4 then lane (s.zreg (operandsOf i).dest) j ^^^ elementOf i bs j else lane (s.zreg (operandsOf i).dest) j) ∧
        (isVex i = true → lane (t.zreg (operandsOf i).dest) j =
          if j < i.form.kl then lane (s.zreg (operandsOf i).src1) j ^^^ elementOf i bs j else 0) ∧
        (∀ e, evexOf i = some e →
          (j < i.form.kl → selected s e j →
            lane (t.zreg (operandsOf i).dest) j = lane (s.zreg (operandsOf i).src1) j ^^^ elementOf i bs j) ∧
          (j < i.form.kl → ¬ selected s e j →
            lane (t.zreg (operandsOf i).dest) j = if e.z = true then 0 else lane (s.zreg (operandsOf i).dest) j) ∧
          (i.form.kl ≤ j → lane (t.zreg (operandsOf i).dest) j = 0))

/-- A step whose next pc would not be canonical, or would pass 2^64 - 1, is refused rather than wrapped, when the instruction
otherwise completes: with a register second source, and with a memory operand that raises nothing and lies in plain memory (an
instruction that raises an exception does so first: notes/assumptions/27.md). -/
def Obligations.NextPcOutOfRangeRefused : Prop :=
  ∀ (i : Instr) (s : State), s.ready i.form = true → illegalOf i = false →
    ((∃ n, (operandsOf i).src2 = .reg n) ∨
      ∃ m, (operandsOf i).src2 = .mem m ∧ OperandClear s i m ∧ s.plainBytes (s.readAddr i m) (readSize i) = true) →
    nonCanonical s.cfg.va.bits (s.pc.toNat + i.len) → exec i s = .refused .nextPcOutOfRange

/-- A completed instruction reads memory at most once, and only for a memory operand: 16 bytes in forms 1, 2 and 4, 32 in forms 3
and 5, 64 in form 6, and 4 under EVEX.b. -/
def Obligations.OneReadOfTheFormsSize : Prop :=
  ∀ (i : Instr) (s t : State), exec i s = .next t →
    (∀ n, (operandsOf i).src2 = .reg n → t.reads = s.reads) ∧
    (∀ m, (operandsOf i).src2 = .mem m → ∃ bs, t.reads = s.reads ++ [⟨s.readAddr i m, bs⟩] ∧
      bs.length =
        if i.bcast = true then 4
        else match i.form with
          | .sse     => 16
          | .vex128  => 16
          | .vex256  => 32
          | .evex128 => 16
          | .evex256 => 32
          | .evex512 => 64)

/-! ## Frames and independence -/

/-- A completed instruction changes one vector register and the pc: every other register, all flags and MXCSR, all control state
and every byte of memory are as before, and under form 1 also bits 511:128 of the destination. -/
def Obligations.CompletedInstructionFrame : Prop :=
  ∀ (i : Instr) (s t : State), exec i s = .next t →
    UnchangedBut (operandsOf i).dest s t ∧ t.pc.toNat = s.pc.toNat + i.len ∧
      (i.form = .sse → ∀ b, 128 ≤ b → (t.zreg (operandsOf i).dest).getLsbD b = (s.zreg (operandsOf i).dest).getLsbD b)

/-- A fault is precise: it names the pc of the instruction; without a memory operand it is #UD or #NM; no write-fault or fetch bit
stands in a page-fault code; and recording it leaves every field of the state as it was but the record itself and, for a page fault
only, CR2. -/
def Obligations.FaultsArePrecise : Prop :=
  ∀ (i : Instr) (s : State) (x : Exc) (pc : Word), exec i s = .fault (.exception x pc) →
    pc = s.pc ∧
    (x = .ud ∨ x = .nm ∨ ((∃ m, (operandsOf i).src2 = .mem m) ∧
      (x = .ss ∨ x = .gp ∨ x = .ac ∨ ∃ code addr, x = .pf code addr ∧ code.getLsbD 1 = false ∧ code.getLsbD 4 = false))) ∧
    ∃ c : Word, afterStep s (exec i s) = { s with fault := some (.exception x pc), cr2 := c } ∧
      (∀ code addr, x = .pf code addr → c = addr) ∧ ((∀ code addr, x ≠ .pf code addr) → c = s.cr2)

/-- No step raises #XM, and none changes MXCSR. -/
def Obligations.NoSimdFloatingPointException : Prop :=
  ∀ s : State,
    (∀ (pc : Word), s.fault ≠ some (.exception .xm pc) → step s ≠ .fault (.exception .xm pc)) ∧
    (∀ t, step s = .next t → t.mxcsr = s.mxcsr)

/-- No status flag and no MXCSR bit enters a result (EFLAGS.AC, which the model takes to be bit 18 and to enter #AC only, is the
model's choice: notes/assumptions/8.md and 9.md): changing MXCSR and EFLAGS in any way that keeps EFLAGS.AC changes the outcome of
an instruction in those registers only. -/
def Obligations.StatusRegistersDoNotMatter : Prop :=
  ∀ (i : Instr) (s : State) (fl mx : BitVec 32), fl.getLsbD 18 = s.eflags.getLsbD 18 →
    exec i { s with eflags := fl, mxcsr := mx } = mapNext (fun t => { t with eflags := fl, mxcsr := mx }) (exec i s)

/-- Opmask bits at KL and above, and all of k0, are never read: changing them changes the outcome of an instruction in the opmask
registers only. -/
def Obligations.UnreadOpmaskBitsDoNotMatter : Prop :=
  ∀ (i : Instr) (s : State) (ks : Vector (BitVec 64) 8),
    (∀ n : BitVec 3, n ≠ 0 → ∀ j < i.form.kl, ({ s with k := ks }.kreg n).getLsbD j = (s.kreg n).getLsbD j) →
    exec i { s with k := ks } = mapNext (fun t => { t with k := ks }) (exec i s)

/-- The same register as both sources: XORPS clears elements 0 to 3 and keeps elements 4 to 15; a VEX form clears the whole
destination, whatever it is; an EVEX form clears every selected element. -/
def Obligations.SameSourcesGiveZero : Prop :=
  ∀ (i : Instr) (s t : State), (operandsOf i).src2 = .reg (operandsOf i).src1 → exec i s = .next t →
    (i.form = .sse → ∀ j < 16, lane (t.zreg (operandsOf i).dest) j =
      if j < 4 then 0 else lane (s.zreg (operandsOf i).dest) j) ∧
    (isVex i = true → t.zreg (operandsOf i).dest = 0) ∧
    (∀ e, evexOf i = some e → ∀ j < 16, j < i.form.kl → selected s e j → lane (t.zreg (operandsOf i).dest) j = 0)

/-- Applying the same register second source twice to a destination that is also the first source restores its bits VL-1:0:
all three classes, the EVEX forms unmasked. -/
def Obligations.ApplyingTwiceRestores : Prop :=
  ∀ (i : Instr) (s t u : State) (n : BitVec 5), (operandsOf i).src2 = .reg n → (operandsOf i).src1 = (operandsOf i).dest →
    n ≠ (operandsOf i).dest → (∀ e, evexOf i = some e → e.aaa = 0) → exec i s = .next t → exec i t = .next u →
    ∀ j < i.form.kl, lane (u.zreg (operandsOf i).dest) j = lane (s.zreg (operandsOf i).dest) j

/-! ## Reset and invariants -/

/-- The state after reset, of any configuration: the values the spec lists in R35 (from general knowledge, notes/assumptions/4.md;
the widths are the family's, notes/assumptions/8.md), RDX the configuration's processor signature, which is as wide as RDX and any
value (the model's choice: notes/assumptions/5.md). -/
def Obligations.ResetValues : Prop :=
  ∀ c : Config, (State.resetOf c).mode = .real ∧ (State.resetOf c).pc = 0xFFF0 ∧ (State.resetOf c).csBase = 0xFFFF0000 ∧
    (∀ n, (State.resetOf c).zreg n = 0) ∧ (∀ n, (State.resetOf c).kreg n = 0) ∧
    (∀ n, (State.resetOf c).xreg n = if n = 2 then c.signature else 0) ∧
    (State.resetOf c).eflags = 2 ∧ (State.resetOf c).mxcsr = 0x1F80 ∧ (State.resetOf c).cr0 = 0x60000010 ∧
    (State.resetOf c).cr4 = 0 ∧ (State.resetOf c).xcr0 = 1 ∧ ∀ f, (State.resetOf c).enabled f = false

/-- The state after reset, of any configuration of the model, meets the invariant. -/
def Obligations.ResetMeetsInvariant : Prop := ∀ c : Config, c.valid = true → (State.resetOf c).Inv

/-- Every step keeps the invariant: a possible configuration, registers within MAXVL, NVEC and KW, a canonical pc, memory in
canonical form. -/
def Obligations.StepKeepsInvariant : Prop := ∀ s t : State, s.Inv → step s = .next t → t.Inv

/-- However many steps a run takes from any state, it ends with the memory (so the program), the opmask and general registers, the
flags, the control state and the parameters it began with, at a pc no lower, 3 to 15 bytes further for each step. -/
def Obligations.RunChangesVectorsAndPcOnly : Prop :=
  ∀ (n : Nat) (s t : State), Host.Core.run core n s = .next t →
    t.mem = s.mem ∧ t.code = s.code ∧ t.k = s.k ∧ t.x = s.x ∧ t.eflags = s.eflags ∧ t.mxcsr = s.mxcsr ∧ t.mode = s.mode ∧
      t.cr0 = s.cr0 ∧ t.cr2 = s.cr2 ∧ t.cr4 = s.cr4 ∧ t.xcr0 = s.xcr0 ∧ t.csBase = s.csBase ∧ t.fsBase = s.fsBase ∧
      t.gsBase = s.gsBase ∧ t.fault = s.fault ∧ t.map = s.map ∧ t.xlat = s.xlat ∧ t.cfg = s.cfg ∧
      s.pc.toNat + 3 * n ≤ t.pc.toNat ∧ t.pc.toNat ≤ s.pc.toNat + 15 * n

/-! ## Prefix bytes -/

/-- Each legacy prefix byte that form 1 accepts or that raises #UD, and each of the sixteen REX bytes, before `0F 57 C8` decodes as
the prefix it is: 2E, 36, 3E, 26, 64, 65 the override of CS, SS, DS, ES, FS, GS; 67 the address size; F0 LOCK; 40 to 4F REX with W,
R, X, B in its low four bits. -/
def Obligations.PrefixBytesRead : Prop :=
  (∀ q ∈ ([(0x2E, .seg .cs), (0x36, .seg .ss), (0x3E, .seg .ds), (0x26, .seg .es), (0x64, .seg .fs), (0x65, .seg .gs),
      (0x67, .addrSize), (0xF0, .lock)] : List (Byte × Prefix)),
    decode [q.1, 0x0F, 0x57, 0xC8] = .ok (.xorps ⟨[q.2], 1, .reg 0⟩, [])) ∧
  (∀ w : BitVec 4, decode [(4 : BitVec 4) ++ w, 0x0F, 0x57, 0xC8] = .ok (.xorps ⟨[.rex w], 1, .reg 0⟩, []))
end

