-- ==== Sys2Proof/Laws/Decode.lean ====
section
/-! SUPPORT. The parts of an encoding, each in both directions: a part that is written out is read back, and a part that is
read is written out as the bytes it was read from. -/

namespace Sys2Proof

/-! ## Prefixes -/

@[simp] theorem Prefix.ofByte_toByte (p : Prefix) : Prefix.ofByte p.toByte = some p := by
  cases p with
  | seg s => cases s <;> rfl
  | rex w => revert w; decide
  | _ => rfl

theorem Prefix.map_toByte_ofByte (b : Byte) : Prefix.ofByte b = none ∨ (Prefix.ofByte b).map Prefix.toByte = some b := by
  revert b; decide

theorem Prefix.toByte_of_ofByte (b : Byte) (p : Prefix) (h : Prefix.ofByte b = some p) : p.toByte = b := by
  rcases Prefix.map_toByte_ofByte b with hb | hb
  · rw [h] at hb; cases hb
  · simpa [h] using hb

/-- Bytes whose first is no prefix. -/
def noPrefixFirst : List Byte → Prop
  | []     => True
  | b :: _ => Prefix.ofByte b = none

theorem scanPrefixes_of_noPrefix {bs : List Byte} (h : noPrefixFirst bs) : scanPrefixes bs = ([], bs) := by
  cases bs with
  | nil => rfl
  | cons b bs => simp only [noPrefixFirst] at h; simp [scanPrefixes, h]

/-- Prefixes written out are scanned back. -/
theorem scanPrefixes_map (pre : List Prefix) {bs : List Byte} (h : noPrefixFirst bs) :
    scanPrefixes (pre.map Prefix.toByte ++ bs) = (pre, bs) := by
  induction pre with
  | nil => exact scanPrefixes_of_noPrefix h
  | cons p pre ih => simp [scanPrefixes, ih]

/-- Scanned prefixes are the bytes they were scanned from. -/
theorem map_scanPrefixes (bs : List Byte) : (scanPrefixes bs).1.map Prefix.toByte ++ (scanPrefixes bs).2 = bs := by
  induction bs with
  | nil => rfl
  | cons b bs ih =>
    simp only [scanPrefixes]
    split
    · rfl
    · rename_i p hp
      simp [ih, Prefix.toByte_of_ofByte b p hp]

/-! ## ModRM and SIB bytes -/

@[simp] theorem modOf_modrmByte (m : BitVec 2) (g n : BitVec 3) : modOf (modrmByte m g n) = m := by
  revert m g n; decide

@[simp] theorem regOf_modrmByte (m : BitVec 2) (g n : BitVec 3) : regOf (modrmByte m g n) = g := by
  revert m g n; decide

@[simp] theorem rmOf_modrmByte (m : BitVec 2) (g n : BitVec 3) : rmOf (modrmByte m g n) = n := by
  revert m g n; decide

theorem modrmByte_fields (b : Byte) : modrmByte (modOf b) (regOf b) (rmOf b) = b := by
  revert b; decide

/-! ## Displacements -/

@[simp] theorem parse32_bytes32 (d : BitVec 32) (bs : List Byte) : parse32 (bytes32 d ++ bs) = some (d, bs) := by
  simp only [bytes32, List.cons_append, List.nil_append, parse32, Option.some.injEq, Prod.mk.injEq, and_true]
  apply BitVec.eq_of_getLsbD_eq
  intro i hi
  simp only [BitVec.getLsbD_append, BitVec.getLsbD_extractLsb']
  by_cases h0 : i < 8
  · simp [h0]
  · by_cases h1 : i < 16
    · simp [h0, show i - 8 < 8 by omega, show 8 + (i - 8) = i by omega]
    · by_cases h2 : i < 24
      · simp [h0, show ¬ i - 8 < 8 by omega, show i - 8 - 8 < 8 by omega, show 16 + (i - 8 - 8) = i by omega]
      · simp [h0, show ¬ i - 8 < 8 by omega, show ¬ i - 8 - 8 < 8 by omega, show i - 8 - 8 - 8 < 8 by omega,
          show 24 + (i - 8 - 8 - 8) = i by omega]

theorem bytes32_append (b0 b1 b2 b3 : Byte) : bytes32 (b3 ++ b2 ++ b1 ++ b0) = [b0, b1, b2, b3] := by
  simp only [bytes32, List.cons.injEq, and_true]
  refine ⟨?_, ?_, ?_, ?_⟩ <;> apply BitVec.eq_of_getLsbD_eq <;> intro i hi <;>
    simp only [BitVec.getLsbD_append, BitVec.getLsbD_extractLsb', hi, decide_true, Bool.true_and]
  · simp [hi]
  · simp [hi, show ¬ 8 + i < 8 by omega]
  · simp [hi, show ¬ 16 + i < 8 by omega, show ¬ 16 + i - 8 < 8 by omega, show 16 + i - 8 - 8 = i by omega]
  · simp [show ¬ 24 + i < 8 by omega, show ¬ 24 + i - 8 < 8 by omega, show ¬ 24 + i - 8 - 8 < 8 by omega,
      show 24 + i - 8 - 8 - 8 = i by omega]

theorem bytes32_of_parse32 {bs rest : List Byte} {d : BitVec 32} (h : parse32 bs = some (d, rest)) :
    bytes32 d ++ rest = bs := by
  unfold parse32 at h
  split at h
  · cases h
    rw [bytes32_append]
    rfl
  · cases h

@[simp] theorem parseDisp_bytes (d : Disp) (bs : List Byte) : parseDisp d.mod (d.bytes ++ bs) = some (d, bs) := by
  cases d <;> simp [parseDisp, Disp.mod, Disp.bytes]

theorem Disp.mod_ne_three (d : Disp) : d.mod ≠ 3 := by cases d <;> simp [Disp.mod]

theorem Disp.mod_eq_zero (d : Disp) : d.mod = 0 ↔ d = .absent := by cases d <;> simp [Disp.mod]

/-- A displacement that is read was written so, and its mod is the one it was read under. -/
theorem bytes_of_parseDisp {m : BitVec 2} (hm : m ≠ 3) {bs rest : List Byte} {d : Disp}
    (h : parseDisp m bs = some (d, rest)) : d.bytes ++ rest = bs ∧ d.mod = m := by
  unfold parseDisp at h
  split at h
  · rename_i h0; cases h; exact ⟨rfl, h0.symm⟩
  · split at h
    · rename_i h1
      split at h
      · cases h; exact ⟨rfl, h1.symm⟩
      · cases h
    · rename_i h0 h1
      split at h
      · rename_i hp
        cases h
        exact ⟨bytes32_of_parse32 hp, (by decide : ∀ m : BitVec 2, m ≠ 0 → m ≠ 1 → m ≠ 3 → (2 : BitVec 2) = m) m h0 h1 hm⟩
      · cases h

/-! ## The r/m operand -/

/-- ModRM and what follows it, written out, is read back. -/
theorem parseRM_bytes (g : BitVec 3) (rm : RM) (hw : rm.wellFormed = true) (bs : List Byte) :
    parseRM (rm.bytes g ++ bs) = some (g, rm, bs) := by
  cases rm with
  | reg n => simp [parseRM, RM.bytes]
  | mem a =>
    cases a with
    | base n d =>
      have hn : n ≠ 4 := by simp [RM.wellFormed, AddrForm.wellFormed] at hw; exact hw.1
      have h5 : ¬ (n = 5 ∧ d.mod = 0) := by
        rw [Disp.mod_eq_zero]
        simp [RM.wellFormed, AddrForm.wellFormed] at hw
        tauto
      simp only [RM.bytes, List.cons_append, parseRM, parseMem, modOf_modrmByte, rmOf_modrmByte, regOf_modrmByte,
        if_neg d.mod_ne_three, if_neg hn, if_neg h5, parseDisp_bytes]
    | ripRel d => simp [parseRM, RM.bytes, parseMem]
    | sib sc ix b d =>
      have h5 : ¬ (b = 5 ∧ d.mod = 0) := by
        rw [Disp.mod_eq_zero]
        simp [RM.wellFormed, AddrForm.wellFormed] at hw
        tauto
      simp only [RM.bytes, List.cons_append, parseRM, parseMem, parseSib, modOf_modrmByte, rmOf_modrmByte,
        regOf_modrmByte, if_neg d.mod_ne_three, if_true, if_neg h5, parseDisp_bytes]
    | sibAbs sc ix d => simp [parseRM, RM.bytes, parseMem, parseSib]

theorem bytes_of_parseMem {m : BitVec 2} (hm : m ≠ 3) {n g : BitVec 3} {bs rest : List Byte} {a : AddrForm}
    (h : parseMem m n bs = some (a, rest)) :
    (RM.mem a).bytes g ++ rest = modrmByte m g n :: bs ∧ a.wellFormed = true := by
  unfold parseMem at h
  split at h
  · rename_i h4
    subst h4
    unfold parseSib at h
    split at h
    · cases h
    · rename_i sib bs'
      split at h
      · rename_i h5
        split at h
        · rename_i hp
          cases h
          rw [← bytes32_of_parse32 hp, h5.2]
          refine ⟨?_, rfl⟩
          simp only [RM.bytes, List.cons_append, List.cons.injEq, true_and, and_true]
          rw [← h5.1]; exact modrmByte_fields sib
        · cases h
      · rename_i h5
        split at h
        · rename_i hp
          cases h
          obtain ⟨hb, hmod⟩ := bytes_of_parseDisp hm hp
          refine ⟨by simp [RM.bytes, hmod, hb, modrmByte_fields], ?_⟩
          rw [← hmod, Disp.mod_eq_zero] at h5
          simp [AddrForm.wellFormed]
          tauto
        · cases h
  · rename_i h4
    split at h
    · rename_i h5
      split at h
      · rename_i hp
        cases h
        exact ⟨by simp [RM.bytes, bytes32_of_parse32 hp, h5], rfl⟩
      · cases h
    · rename_i h5
      split at h
      · rename_i hp
        cases h
        obtain ⟨hb, hmod⟩ := bytes_of_parseDisp hm hp
        refine ⟨by simp [RM.bytes, hmod, hb], ?_⟩
        rw [← hmod, Disp.mod_eq_zero] at h5
        simp [AddrForm.wellFormed]
        tauto
      · cases h

/-- ModRM and what follows it, once read, is written out as the same bytes, and is well-formed. -/
theorem bytes_of_parseRM {bs rest : List Byte} {g : BitVec 3} {rm : RM} (h : parseRM bs = some (g, rm, rest)) :
    rm.bytes g ++ rest = bs ∧ rm.wellFormed = true := by
  unfold parseRM at h
  split at h
  · cases h
  · rename_i b bs'
    split at h
    · rename_i h3
      cases h
      refine ⟨?_, rfl⟩
      simp only [RM.bytes, List.cons_append, List.nil_append, List.cons.injEq, and_true]
      rw [← h3]; exact modrmByte_fields b
    · rename_i h3
      split at h
      · rename_i hp
        cases h
        obtain ⟨hb, hw⟩ := bytes_of_parseMem (g := regOf b) h3 hp
        exact ⟨by rw [hb, modrmByte_fields], hw⟩
      · cases h

/-! ## Lengths (R102) -/

theorem Disp.length_bytes (d : Disp) : d.bytes.length = d.len := by cases d <;> rfl

@[simp] theorem RM.length_bytes (rm : RM) (g : BitVec 3) : (rm.bytes g).length = rm.len := by
  cases rm with
  | reg n => rfl
  | mem a => cases a <;> simp [RM.bytes, RM.len, AddrForm.len, Disp.length_bytes, bytes32] <;> omega

theorem RM.len_pos (rm : RM) : 1 ≤ rm.len := by cases rm <;> simp [RM.len]

theorem RM.len_le (rm : RM) : rm.len ≤ 6 := by
  cases rm with
  | reg n => simp [RM.len]
  | mem a => rcases a with ⟨n, d⟩ | d | ⟨sc, ix, b, d⟩ | ⟨sc, ix, d⟩ <;> cases d <;> simp [RM.len, AddrForm.len, Disp.len]

/-! ## The bytes of the VEX and EVEX prefixes -/

/-- The fields of a byte that holds R, vvvv, L and pp (R89). -/
theorem vex2Byte_fields (r : Bool) (v : BitVec 4) (l : Bool) :
    let b : Byte := bit1 (!r) ++ ~~~v ++ bit1 l ++ (0 : BitVec 2)
    (!b.getLsbD 7) = r ∧ ~~~(b.extractLsb' 3 4) = v ∧ b.getLsbD 2 = l ∧ b.extractLsb' 0 2 = 0 := by
  revert r v l; decide

theorem vex2Byte_of (b : Byte) (h : b.extractLsb' 0 2 = 0) :
    (bit1 (!(!b.getLsbD 7)) ++ ~~~(~~~(b.extractLsb' 3 4)) ++ bit1 (b.getLsbD 2) ++ (0 : BitVec 2) : Byte) = b := by
  revert b; decide

/-- The fields of a byte that holds R, X, B and a five-bit map (R90). -/
theorem vex3Byte_fields (r x b : Bool) :
    let v : Byte := bit1 (!r) ++ bit1 (!x) ++ bit1 (!b) ++ (1 : BitVec 5)
    (!v.getLsbD 7) = r ∧ (!v.getLsbD 6) = x ∧ (!v.getLsbD 5) = b ∧ v.extractLsb' 0 5 = 1 := by
  revert r x b; decide

theorem vex3Byte_of (v : Byte) (h : v.extractLsb' 0 5 = 1) :
    (bit1 (!(!v.getLsbD 7)) ++ bit1 (!(!v.getLsbD 6)) ++ bit1 (!(!v.getLsbD 5)) ++ (1 : BitVec 5) : Byte) = v := by
  revert v; decide

/-- The fields of a byte that holds W, vvvv, L and pp (R90). -/
theorem vex3Byte2_fields (w : Bool) (v : BitVec 4) (l : Bool) :
    let b : Byte := bit1 w ++ ~~~v ++ bit1 l ++ (0 : BitVec 2)
    b.getLsbD 7 = w ∧ ~~~(b.extractLsb' 3 4) = v ∧ b.getLsbD 2 = l ∧ b.extractLsb' 0 2 = 0 := by
  revert w v l; decide

theorem vex3Byte2_of (b : Byte) (h : b.extractLsb' 0 2 = 0) :
    (bit1 (b.getLsbD 7) ++ ~~~(~~~(b.extractLsb' 3 4)) ++ bit1 (b.getLsbD 2) ++ (0 : BitVec 2) : Byte) = b := by
  revert b; decide

/-- The fields of P0 (R93). -/
theorem evexP0_fields (r x b r2 : Bool) :
    let p : Byte := bit1 (!r) ++ bit1 (!x) ++ bit1 (!b) ++ bit1 (!r2) ++ (1 : BitVec 4)
    (!p.getLsbD 7) = r ∧ (!p.getLsbD 6) = x ∧ (!p.getLsbD 5) = b ∧ (!p.getLsbD 4) = r2 ∧ p.getLsbD 3 = false ∧
      p.extractLsb' 0 3 = 1 := by
  revert r x b r2; decide

theorem evexP0_of (p : Byte) (h3 : p.getLsbD 3 = false) (h : p.extractLsb' 0 3 = 1) :
    (bit1 (!(!p.getLsbD 7)) ++ bit1 (!(!p.getLsbD 6)) ++ bit1 (!(!p.getLsbD 5)) ++ bit1 (!(!p.getLsbD 4)) ++
      (1 : BitVec 4) : Byte) = p := by
  revert p; decide

/-- The fields of P1 (R93). -/
theorem evexP1_fields (v : BitVec 4) :
    let p : Byte := bit1 false ++ ~~~v ++ (4 : BitVec 3)
    ~~~(p.extractLsb' 3 4) = v ∧ p.getLsbD 7 = false ∧ p.getLsbD 2 = true ∧ p.extractLsb' 0 2 = 0 := by
  revert v; decide

theorem evexP1_of (p : Byte) (h7 : p.getLsbD 7 = false) (h2 : p.getLsbD 2 = true) (h : p.extractLsb' 0 2 = 0) :
    (bit1 false ++ ~~~(~~~(p.extractLsb' 3 4)) ++ (4 : BitVec 3) : Byte) = p := by
  revert p; decide

/-- The fields of P2 (R93). -/
theorem evexP2_fields (z : Bool) (ll : BitVec 2) (bc v2 : Bool) (aaa : BitVec 3) :
    let p : Byte := bit1 z ++ ll ++ bit1 bc ++ bit1 (!v2) ++ aaa
    p.getLsbD 7 = z ∧ p.extractLsb' 5 2 = ll ∧ p.getLsbD 4 = bc ∧ (!p.getLsbD 3) = v2 ∧ p.extractLsb' 0 3 = aaa := by
  revert z ll bc v2 aaa; decide

theorem evexP2_of (p : Byte) :
    (bit1 (p.getLsbD 7) ++ p.extractLsb' 5 2 ++ bit1 (p.getLsbD 4) ++ bit1 (!(!p.getLsbD 3)) ++ p.extractLsb' 0 3 : Byte)
      = p := by
  revert p; decide

/-! ## Decoding behind prefixes, and bytes that end inside an instruction -/

/-- Behind prefixes that R86 does not refuse, the decoder reads the class. -/
theorem decode_map {pre : List Prefix} {tail : List Byte} (hp : prefixesWellFormed pre = true) (hn : noPrefixFirst tail) :
    decode (pre.map Prefix.toByte ++ tail) =
      match decodeClass pre tail with
      | .error r      => .error r
      | .ok (i, rest) => if i.len ≤ maxLen then .ok (i, rest) else .error .tooLong := by
  have h : repeatsPrefix pre = false ∧ hasTwoSegments pre = false := by simpa [prefixesWellFormed] using hp
  simp only [decode, scanPrefixes_map pre hn, h.1, h.2]
  rfl

theorem prefixesWellFormed_take {pre : List Prefix} (hp : prefixesWellFormed pre = true) (k : Nat) :
    prefixesWellFormed (pre.take k) = true := by
  have hs : (pre.take k).Sublist pre := List.take_sublist k pre
  simp only [prefixesWellFormed, repeatsPrefix, hasTwoSegments, Bool.not_not, Bool.and_eq_true, decide_eq_true_eq,
    Bool.not_eq_true', decide_eq_false_iff_not, Nat.not_lt] at hp ⊢
  exact ⟨hp.1.sublist (hs.filter _), (hs.filter _).length_le.trans hp.2⟩

theorem parse32_take (d : BitVec 32) {k : Nat} (h : k < 4) : parse32 ((bytes32 d).take k) = none := by
  obtain rfl | rfl | rfl | rfl : k = 0 ∨ k = 1 ∨ k = 2 ∨ k = 3 := by omega
  all_goals rfl

theorem parseDisp_take (d : Disp) {k : Nat} (h : k < d.len) : parseDisp d.mod (d.bytes.take k) = none := by
  cases d with
  | absent => simp [Disp.len] at h
  | d8 d =>
    obtain rfl : k = 0 := by simpa [Disp.len] using h
    rfl
  | d32 d => simp [parseDisp, Disp.mod, Disp.bytes, parse32_take d h]

/-- A ModRM operand that the bytes cut short is not read. -/
theorem parseRM_take {rm : RM} (hw : rm.wellFormed = true) (g : BitVec 3) {k : Nat} (h : k < rm.len) :
    parseRM ((rm.bytes g).take k) = none := by
  obtain rfl | ⟨k, rfl⟩ : k = 0 ∨ ∃ j, k = j + 1 := by
    cases k <;> simp
  · rfl
  cases rm with
  | reg n => simp [RM.len] at h
  | mem a =>
    cases a with
    | base n d =>
      have hn : n ≠ 4 := by simp [RM.wellFormed, AddrForm.wellFormed] at hw; exact hw.1
      have h5 : ¬ (n = 5 ∧ d.mod = 0) := by
        rw [Disp.mod_eq_zero]
        simp [RM.wellFormed, AddrForm.wellFormed] at hw
        tauto
      simp only [RM.bytes, List.take_succ_cons, parseRM, parseMem, modOf_modrmByte, rmOf_modrmByte, if_neg d.mod_ne_three,
        if_neg hn, if_neg h5, parseDisp_take d (k := k) (by simp [RM.len, AddrForm.len] at h; omega)]
    | ripRel d =>
      simp [RM.bytes, parseRM, parseMem, parse32_take d (k := k) (by simp [RM.len, AddrForm.len] at h; omega)]
    | sib sc ix b d =>
      have h5 : ¬ (b = 5 ∧ d.mod = 0) := by
        rw [Disp.mod_eq_zero]
        simp [RM.wellFormed, AddrForm.wellFormed] at hw
        tauto
      simp only [RM.bytes, List.take_succ_cons, parseRM, parseMem, modOf_modrmByte, rmOf_modrmByte, if_neg d.mod_ne_three,
        if_true]
      cases k with
      | zero => rfl
      | succ k =>
        simp only [List.take_succ_cons, parseSib, modOf_modrmByte, rmOf_modrmByte, if_neg h5,
          parseDisp_take d (k := k) (by simp [RM.len, AddrForm.len] at h; omega)]
    | sibAbs sc ix d =>
      simp only [RM.bytes, List.take_succ_cons, parseRM, parseMem, modOf_modrmByte, rmOf_modrmByte]
      cases k with
      | zero => rfl
      | succ k =>
        simp [List.take_succ_cons, parseSib, parse32_take d (k := k) (by simp [RM.len, AddrForm.len] at h; omega)]

/-- Prefixes and a class cut short anywhere are truncated, if the class cut short is. -/
theorem decode_take {pre : List Prefix} {c : Byte} {tail : List Byte} (hp : prefixesWellFormed pre = true)
    (hc : Prefix.ofByte c = none) {k n : Nat} (hk : k < pre.length + n)
    (ht : ∀ j, j + 1 < n → decodeClass pre (c :: tail.take j) = .error .truncated) :
    decode ((pre.map Prefix.toByte ++ c :: tail).take k) = .error .truncated := by
  by_cases h : k ≤ pre.length
  · rw [List.take_append_of_le_length (by simpa using h), ← List.map_take, ← List.append_nil (List.map _ _),
      decode_map (prefixesWellFormed_take hp k) (show noPrefixFirst [] from trivial)]
    rfl
  · obtain ⟨j, rfl⟩ : ∃ j, k = pre.length + (j + 1) := ⟨k - pre.length - 1, by omega⟩
    have : ((pre.map Prefix.toByte ++ c :: tail).take (pre.length + (j + 1))) = pre.map Prefix.toByte ++ c :: tail.take j := by
      rw [List.take_append, List.take_of_length_le (by simp)]
      simp
    rw [this, decode_map hp (show noPrefixFirst (c :: _) from hc), ht j (by omega)]

/-- The bytes of an instruction that end before it does are truncated, whatever its length (R102). -/
theorem decode_encode_take {i : Instr} (hw : i.fieldsWellFormed = true) {k : Nat} (hk : k < i.len) :
    decode ((encode i).take k) = .error .truncated := by
  cases i with
  | xorps e =>
    simp only [Instr.fieldsWellFormed, Legacy.wellFormed, Bool.and_eq_true] at hw
    refine decode_take hw.1.1 (by decide) (n := 2 + e.rm.len) (by simp [Instr.len, Legacy.len] at hk; omega) (fun j hj => ?_)
    rcases j with _ | j
    · rfl
    · simp [decodeClass, decodeLegacy, parseRM_take hw.2 e.reg (k := j) (by omega)]
  | vxorpsVex128C5 e | vxorpsVex256C5 e =>
    simp only [Instr.fieldsWellFormed, Vex2.wellFormed, Bool.and_eq_true] at hw
    refine decode_take hw.1 (by decide) (n := 3 + e.rm.len) (by simp [Instr.len, Vex2.len] at hk; omega) (fun j hj => ?_)
    rcases j with _ | _ | j
    · rfl
    · rfl
    · simp [decodeClass, decodeVex2, parseRM_take hw.2 e.reg (k := j) (by omega)]
  | vxorpsVex128C4 e | vxorpsVex256C4 e =>
    simp only [Instr.fieldsWellFormed, Vex3.wellFormed, Bool.and_eq_true] at hw
    refine decode_take hw.1 (by decide) (n := 4 + e.rm.len) (by simp [Instr.len, Vex3.len] at hk; omega) (fun j hj => ?_)
    rcases j with _ | _ | _ | j
    · rfl
    · rfl
    · rfl
    · simp [decodeClass, decodeVex3, parseRM_take hw.2 e.reg (k := j) (by omega)]
  | vxorpsEvex128 e | vxorpsEvex256 e | vxorpsEvex512 e =>
    simp only [Instr.fieldsWellFormed, Evex.wellFormed, Bool.and_eq_true] at hw
    refine decode_take hw.1 (by decide) (n := 5 + e.rm.len) (by simp [Instr.len, Evex.len] at hk; omega) (fun j hj => ?_)
    rcases j with _ | _ | _ | _ | j
    · rfl
    · rfl
    · rfl
    · rfl
    · simp [decodeClass, decodeEvex, parseRM_take hw.2 e.reg (k := j) (by omega)]

end Sys2Proof
end

