-- ==== Sys2Proof/Laws/Memory.lean ====
section
/-! SUPPORT. What the memory operations do: reading after writing, the canonical form, the little-endian value of bytes, and
everything a read of several bytes can do. -/

namespace Sys2Proof.Machine

/-! ## The canonical form -/

theorem Memory.wf_iff (m : List Host.Cell) :
    Memory.wf m = true ↔ m.Pairwise (fun c d => c.1 < d.1) ∧ ∀ c ∈ m, c.2 ≠ unlistedByte := by
  simp [Memory.wf]

theorem memCons_wf {a : Nat} {v : Byte} {m : List Host.Cell} (h : Memory.wf m = true) (ha : ∀ c ∈ m, a < c.1) :
    Memory.wf (memCons a v m) = true := by
  unfold memCons
  split
  · exact h
  · rename_i hv
    rw [Memory.wf_iff] at h ⊢
    refine ⟨List.pairwise_cons.2 ⟨ha, h.1⟩, ?_⟩
    intro c hc
    rcases List.mem_cons.1 hc with rfl | hc
    · exact hv
    · exact h.2 c hc

theorem lt_of_mem_memCons {a x : Nat} {v : Byte} {m : List Host.Cell} (ha : x < a) (hm : ∀ c ∈ m, x < c.1) :
    ∀ c ∈ memCons a v m, x < c.1 := by
  unfold memCons
  split
  · exact hm
  · intro c hc
    rcases List.mem_cons.1 hc with rfl | hc
    · exact ha
    · exact hm c hc

theorem lt_of_mem_memWrite {m : List Host.Cell} {a x : Nat} {v : Byte} (ha : x < a) (hm : ∀ c ∈ m, x < c.1) :
    ∀ c ∈ memWrite m a v, x < c.1 := by
  induction m with
  | nil => exact lt_of_mem_memCons ha (by simp)
  | cons c m ih =>
    obtain ⟨b, w⟩ := c
    have hb : x < b := hm (b, w) (by simp)
    have ht : ∀ c ∈ m, x < c.1 := fun c hc => hm c (by simp [hc])
    unfold memWrite
    split
    · exact lt_of_mem_memCons ha hm
    · split
      · exact lt_of_mem_memCons ha ht
      · intro c hc
        rcases List.mem_cons.1 hc with rfl | hc
        · exact hb
        · exact ih ht c hc

/-- A write keeps the canonical form. -/
theorem memWrite_wf {m : List Host.Cell} {a : Nat} {v : Byte} (h : Memory.wf m = true) :
    Memory.wf (memWrite m a v) = true := by
  induction m with
  | nil => exact memCons_wf h (by simp)
  | cons c m ih =>
    obtain ⟨b, w⟩ := c
    have h' := (Memory.wf_iff _).1 h
    have hgt : ∀ c ∈ m, b < c.1 := (List.pairwise_cons.1 h'.1).1
    have ht : Memory.wf m = true :=
      (Memory.wf_iff _).2 ⟨(List.pairwise_cons.1 h'.1).2, fun c hc => h'.2 c (by simp [hc])⟩
    unfold memWrite
    split
    · rename_i hab
      refine memCons_wf h ?_
      intro c hc
      rcases List.mem_cons.1 hc with rfl | hc
      · exact hab
      · exact Nat.lt_trans hab (hgt c hc)
    · split
      · rename_i hab
        exact memCons_wf ht (hab ▸ hgt)
      · rename_i h1 h2
        have hw := (Memory.wf_iff _).1 (ih ht)
        refine (Memory.wf_iff _).2 ⟨List.pairwise_cons.2 ⟨lt_of_mem_memWrite (by omega) hgt, hw.1⟩, ?_⟩
        intro c hc
        rcases List.mem_cons.1 hc with rfl | hc
        · exact h'.2 _ (by simp)
        · exact hw.2 c hc

/-- Writing several bytes keeps the canonical form. -/
theorem memWriteBytes_wf {m : List Host.Cell} {a : Nat} {bs : List Byte} (h : Memory.wf m = true) :
    Memory.wf (memWriteBytes m a bs) = true := by
  induction bs generalizing m a with
  | nil => exact h
  | cons b bs ih => exact ih (memWrite_wf h)

/-! ## Read after write -/

theorem memRead_of_lt {m : List Host.Cell} {a : Nat} (h : ∀ c ∈ m, a < c.1) : memRead m a = unlistedByte := by
  induction m with
  | nil => rfl
  | cons c m ih =>
    have hc : a ≠ c.1 := Nat.ne_of_lt (h c (by simp))
    simp only [memRead, hc, if_false]
    exact ih (fun d hd => h d (by simp [hd]))

theorem memRead_memCons {a x : Nat} {v : Byte} {m : List Host.Cell} (h : ∀ c ∈ m, a < c.1) :
    memRead (memCons a v m) x = if x = a then v else memRead m x := by
  unfold memCons
  split
  · rename_i hv
    split
    · rename_i hx
      rw [hx, memRead_of_lt h, hv]
    · rfl
  · rfl

/-- A read after a write: the written byte at its address, and every other address as before. -/
theorem memRead_memWrite {m : List Host.Cell} (h : Memory.wf m = true) (a x : Nat) (v : Byte) :
    memRead (memWrite m a v) x = if x = a then v else memRead m x := by
  induction m with
  | nil => exact memRead_memCons (by simp)
  | cons c m ih =>
    obtain ⟨b, w⟩ := c
    have h' := (Memory.wf_iff _).1 h
    have hgt : ∀ c ∈ m, b < c.1 := (List.pairwise_cons.1 h'.1).1
    have ht : Memory.wf m = true :=
      (Memory.wf_iff _).2 ⟨(List.pairwise_cons.1 h'.1).2, fun c hc => h'.2 c (by simp [hc])⟩
    unfold memWrite
    split
    · rename_i hab
      refine memRead_memCons ?_
      intro c hc
      rcases List.mem_cons.1 hc with rfl | hc
      · exact hab
      · exact Nat.lt_trans hab (hgt c hc)
    · split
      · rename_i hab
        subst hab
        rw [memRead_memCons hgt]
        by_cases hx : x = a <;> simp [memRead, hx]
      · rename_i h1 h2
        simp only [memRead, ih ht]
        by_cases hx : x = b
        · have : x ≠ a := by omega
          simp [hx]
          omega
        · simp [hx]

/-- Bytes written upward from an address read back, and every other address reads as before. -/
theorem memRead_memWriteBytes {m : List Host.Cell} (h : Memory.wf m = true) (a x : Nat) (bs : List Byte) :
    memRead (memWriteBytes m a bs) x = if a ≤ x ∧ x < a + bs.length then bs.getD (x - a) 0 else memRead m x := by
  induction bs generalizing m a with
  | nil => simp [memWriteBytes, show ¬ (a ≤ x ∧ x < a) by omega]
  | cons b bs ih =>
    rw [memWriteBytes, ih (memWrite_wf h), memRead_memWrite h]
    by_cases hx : x = a
    · subst hx
      simp
    · by_cases hr : a + 1 ≤ x ∧ x < a + 1 + bs.length
      · rw [if_pos hr, if_pos (by simp; omega), show x - a = (x - (a + 1)) + 1 by omega, List.getD_cons_succ]
      · rw [if_neg hr, if_neg hx, if_neg (by simp; omega)]

/-! ## Little-endian values (R53) -/

theorem leNat_lt (bs : List Byte) : leNat bs < 256 ^ bs.length := by
  induction bs with
  | nil => simp [leNat]
  | cons b bs ih =>
    have hb : b.toNat < 256 := b.isLt
    simp only [leNat, List.length_cons, Nat.pow_succ]
    omega

/-- Bits 8m+7:8m of the value are byte m (R53). -/
theorem leNat_testBit (bs : List Byte) (m i : Nat) (hi : i < 8) :
    (leNat bs).testBit (8 * m + i) = (bs.getD m 0).getLsbD i := by
  induction bs generalizing m with
  | nil => simp [leNat]
  | cons b bs ih =>
    have hb : b.toNat < 2 ^ 8 := b.isLt
    have hl : leNat (b :: bs) = 2 ^ 8 * leNat bs + b.toNat := by simp [leNat]; omega
    rw [hl, Nat.testBit_two_pow_mul_add _ hb]
    cases m with
    | zero => simp [hi, BitVec.getLsbD]
    | succ m =>
      rw [if_neg (by omega), show 8 * (m + 1) + i - 8 = 8 * m + i by omega, ih m]
      simp

/-- Element j of the little-endian value of bytes is the four bytes from 4j (R54). -/
theorem lane_leNat (bs : List Byte) (j : Nat) (hj : j < 16) : lane (BitVec.ofNat 512 (leNat bs)) j = laneOf bs (4 * j) := by
  apply BitVec.eq_of_getLsbD_eq
  intro i hi
  have k := leNat_testBit bs (4 * j + i / 8) (i % 8) (by omega)
  rw [show 8 * (4 * j + i / 8) + i % 8 = 32 * j + i by omega] at k
  rw [lane, BitVec.getLsbD_extractLsb', BitVec.getLsbD_ofNat, k]
  simp only [laneOf, BitVec.getLsbD_append, hi, show 32 * j + i < 512 by omega, decide_true, Bool.true_and]
  obtain h | h | h | h : i / 8 = 0 ∨ i / 8 = 1 ∨ i / 8 = 2 ∨ i / 8 = 3 := by omega
  · simp [h, show i < 8 by omega, show i % 8 = i by omega]
  · simp [h, show ¬ i < 8 by omega, show i - 8 < 8 by omega, show i % 8 = i - 8 by omega]
  · simp [h, show ¬ i < 8 by omega, show ¬ i - 8 < 8 by omega, show i - 8 - 8 < 8 by omega,
      show i % 8 = i - 8 - 8 by omega]
  · simp [h, show ¬ i < 8 by omega, show ¬ i - 8 < 8 by omega, show ¬ i - 8 - 8 < 8 by omega,
      show i % 8 = i - 8 - 8 - 8 by omega]

/-- Element j of the value of n bytes read upward from an address is the four bytes at that address plus 4j (R54). -/
theorem lane_ofNat_leNat (m : List Host.Cell) (a n j : Nat) (hn : 4 * j + 4 ≤ n) (hj : j < 16) :
    lane (BitVec.ofNat 512 (leNat ((List.range n).map (fun k => memRead m (a + k))))) j = laneAt m (a + 4 * j) := by
  have byte : ∀ q, q < n → ((List.range n).map (fun k => memRead m (a + k))).getD q 0 = memRead m (a + q) := by
    intro q hq
    rw [List.getD_eq_getElem?_getD, List.getElem?_map, List.getElem?_range hq]
    rfl
  rw [lane_leNat _ _ hj]
  simp only [laneOf, laneAt, byte _ (show 4 * j + 3 < n by omega), byte _ (show 4 * j + 2 < n by omega),
    byte _ (show 4 * j + 1 < n by omega), byte _ (show 4 * j < n by omega), Nat.add_assoc]

/-! ## Reading several bytes (R53, R57, R61, R66) -/

theorem State.readBytes_length (s : State) {n a d d' : Nat} {bs : List Byte} (h : s.readBytes n a d = some (bs, d')) :
    bs.length = n := by
  induction n generalizing a d d' bs with
  | zero => simp [State.readBytes] at h; simp [← h.1]
  | succ n ih =>
    simp only [State.readBytes] at h
    split at h
    · cases h
    · split at h
      · rename_i hr; cases h; simp [ih hr]
      · cases h
    · split at h
      · rename_i hr; cases h; simp [ih hr]
      · cases h

/-- Each byte of a read: the launch memory's byte in a region of the launch's own. -/
theorem State.readBytes_own_byte (s : State) {n a d d' : Nat} {bs : List Byte} (h : s.readBytes n a d = some (bs, d'))
    {j : Nat} (hj : j < n) (ho : s.regionOf (a + j) = some .own) : bs.getD j 0 = memRead s.mem (a + j) := by
  induction n generalizing a d d' bs j with
  | zero => omega
  | succ n ih =>
    have later {d d' bs' v} (hr : s.readBytes n (a + 1) d = some (bs', d')) {j} (hj : j + 1 < n + 1)
        (ho : s.regionOf (a + (j + 1)) = some .own) : (v :: bs').getD (j + 1) 0 = memRead s.mem (a + (j + 1)) := by
      rw [List.getD_cons_succ, show a + (j + 1) = a + 1 + j by omega]
      exact ih hr (by omega) (by rwa [show a + 1 + j = a + (j + 1) by omega])
    simp only [State.readBytes] at h
    split at h
    · cases h
    · split at h
      · rename_i hr
        cases h
        cases j with
        | zero => simp
        | succ j => exact later hr hj ho
      · cases h
    · rename_i hs
      split at h
      · rename_i hr
        cases h
        cases j with
        | zero => simp [hs] at ho
        | succ j => exact later hr hj ho
      · cases h

theorem State.plainBytes_iff (s : State) (a n : Nat) :
    s.plainBytes a n = true ↔ ∀ j < n, (s.regionOf (a + j)).isSome = true := by
  simp [State.plainBytes]

theorem State.ownBytes_iff (s : State) (a n : Nat) :
    s.ownBytes a n = true ↔ ∀ j < n, s.regionOf (a + j) = some .own := by
  simp [State.ownBytes]

/-- A read is answered exactly when every byte is declared as plain memory (R66). -/
theorem State.readBytes_isSome (s : State) (n a d : Nat) : (s.readBytes n a d).isSome = s.plainBytes a n := by
  rw [Bool.eq_iff_iff, State.plainBytes_iff]
  induction n generalizing a d with
  | zero => simp [State.readBytes]
  | succ n ih =>
    have shift : (∀ j < n + 1, (s.regionOf (a + j)).isSome = true) ↔
        (s.regionOf a).isSome = true ∧ ∀ j < n, (s.regionOf (a + 1 + j)).isSome = true := by
      constructor
      · intro h
        refine ⟨by simpa using h 0 (by omega), fun j hj => ?_⟩
        have := h (j + 1) (by omega)
        rwa [show a + (j + 1) = a + 1 + j by omega] at this
      · rintro ⟨h0, h1⟩ j hj
        cases j with
        | zero => simpa using h0
        | succ j =>
          have := h1 j (by omega)
          rwa [show a + 1 + j = a + (j + 1) by omega] at this
    rw [shift]
    simp only [State.readBytes]
    split
    · rename_i h; simp [h]
    · rename_i h
      rw [← ih (a + 1) d]
      split <;> rename_i hr <;> simp [h, hr]
    · rename_i h
      rw [← ih (a + 1) (d + 1)]
      split <;> rename_i hr <;> simp [h, hr]

/-- A read of the launch's own memory draws no free value and answers the launch memory's bytes (R61). -/
theorem State.readBytes_own (s : State) (n a d : Nat) (h : s.ownBytes a n = true) :
    s.readBytes n a d = some ((List.range n).map (fun j => memRead s.mem (a + j)), d) := by
  rw [State.ownBytes_iff] at h
  induction n generalizing a with
  | zero => rfl
  | succ n ih =>
    have h0 : s.regionOf a = some .own := by simpa using h 0 (by omega)
    have h1 : ∀ j < n, s.regionOf (a + 1 + j) = some .own := fun j hj => by
      have := h (j + 1) (by omega)
      rwa [show a + (j + 1) = a + 1 + j by omega] at this
    simp only [State.readBytes, h0, ih (a + 1) h1]
    rw [List.range_succ_eq_map]
    simp [Function.comp_def, Nat.add_assoc, Nat.add_comm 1]

end Sys2Proof.Machine
end

