-- ==== Sys2Proof/Laws/Operands.lean ====
section
/-! SUPPORT. What forming an operand can do: register numbers, canonical addresses, the translation oracle, the page-fault
code, and the exceptions of the memory operand. -/

namespace Sys2Proof.Machine

/-! ## Register numbers -/

theorem toNat_num4 (e : Bool) (n : BitVec 3) : (num4 e n).toNat = 8 * e.toNat + n.toNat := by
  revert e n
  decide

theorem toNat_num5 (e2 e : Bool) (n : BitVec 3) : (num5 e2 e n).toNat = 16 * e2.toNat + 8 * e.toNat + n.toNat := by
  revert e2 e n
  decide

theorem toNat_bit1_append (b : Bool) (n : BitVec 4) : (bit1 b ++ n).toNat = 16 * b.toNat + n.toNat := by
  revert b n
  decide

/-- The operands count the bytes of their instruction. -/
@[simp] theorem operandsOf_len (i : Instr) : (operandsOf i).len = i.len := by cases i <;> rfl

/-- An instruction has a 67 prefix exactly when it is among its prefixes (R86, R99). -/
@[simp] theorem operandsOf_addr32 (i : Instr) : (operandsOf i).addr32 = true ↔ .addrSize ∈ prefixesOf i := by
  cases i <;> simp [operandsOf, legacyOperands, vex2Operands, vex3Operands, evexOperands, prefixesOf, hasAddrSize]

theorem operandsOf_override (i : Instr) : (operandsOf i).override = overrideOf (prefixesOf i) := by cases i <;> rfl

/-- Among prefixes with at most one segment override, that one is the override (R86, R103). -/
theorem overrideOf_eq_some {pre : List Prefix} (h : hasTwoSegments pre = false) (g : Seg) :
    overrideOf pre = some g ↔ .seg g ∈ pre := by
  rw [hasTwoSegments, decide_eq_false_iff_not, Nat.not_lt] at h
  induction pre with
  | nil => simp [overrideOf]
  | cons p pre ih =>
    cases p with
    | seg sg =>
      have hn : ∀ g, Prefix.seg g ∉ pre := by
        intro g hg
        have := List.length_pos_of_mem (List.mem_filter.2 ⟨hg, rfl⟩ : Prefix.seg g ∈ pre.filter Prefix.isSeg)
        simp only [List.filter_cons, Prefix.isSeg, if_true, List.length_cons] at h
        omega
      simp [overrideOf, hn, eq_comm]
    | _ => simpa [overrideOf] using ih (by simpa [List.filter_cons, Prefix.isSeg] using h)

/-- A well-formed instruction has at most one segment override (R86). -/
theorem hasTwoSegments_of_wellFormed {i : Instr} (h : i.wellFormed = true) : hasTwoSegments (prefixesOf i) = false := by
  cases i <;>
    simp_all [Instr.wellFormed, Instr.fieldsWellFormed, Legacy.wellFormed, Vex2.wellFormed, Vex3.wellFormed, Evex.wellFormed,
      prefixesWellFormed, prefixesOf]

theorem four_le_readSize (i : Instr) : 4 ≤ readSize i := by
  unfold readSize operandSize
  split
  · omega
  · cases i.form <;> decide

/-! ## Canonical addresses (R59, R67) -/

theorem canonical_eq_false (va : VaWidth) (a : Nat) : canonical va.bits a = false ↔ nonCanonical va.bits a := by
  cases va <;> simp only [canonical, nonCanonical, VaWidth.bits] <;> simp <;> omega

theorem canonicalRange_iff (va a n : Nat) : canonicalRange va a n = true ↔ ∀ j < n, canonical va (a + j) = true := by
  simp [canonicalRange]

/-- A next pc that is in range is a 64-bit number. -/
theorem State.lt_of_nextPcOk {s : State} {n : Nat} (h : s.nextPcOk n = true) : s.pc.toNat + n < 2 ^ 64 := by
  have hc : ¬ nonCanonical s.cfg.va.bits (s.pc.toNat + n) := by
    rw [← canonical_eq_false]
    simpa [State.nextPcOk] using h
  unfold nonCanonical at hc
  omega

/-! ## The translation oracle (R59, R172, R179) -/

/-- The oracle answers ok exactly when no faulting range is touched. -/
theorem State.translate_eq_none (s : State) (a n : Nat) (acc : Access) :
    s.translate a n acc = none ↔ ∀ x ∈ s.xlat, x.touches a n acc = false := by
  rw [show (∀ x ∈ s.xlat, x.touches a n acc = false) ↔ s.xlat.filter (fun e => e.touches a n acc) = [] by
    simp [List.filter_eq_nil_iff]]
  unfold State.translate
  split <;> rename_i h <;> simp [h]

/-- A fault answer is that of a range that is touched. -/
theorem State.translate_eq_some (s : State) (a n : Nat) (acc : Access) {x : XlatEntry}
    (h : s.translate a n acc = some x) : x ∈ s.xlat ∧ x.touches a n acc = true := by
  have hx : x ∈ s.xlat.filter (fun e => e.touches a n acc) := by
    unfold State.translate at h
    split at h
    · cases h
    · rename_i hf
      cases h
      simp [hf]
    · rename_i e es _ hf
      rw [Option.some.injEq] at h
      rw [hf, ← h, List.getD_eq_getElem _ _ (Nat.mod_lt _ (by simp))]
      exact List.getElem_mem _
  simpa [List.mem_filter] using hx

/-- The bits of a page-fault code (R172). -/
theorem pfCode_bits (acc : Access) (p u r : Bool) (up : BitVec 27) :
    (pfCode acc p u r up).getLsbD 0 = p ∧ (pfCode acc p u r up).getLsbD 1 = false ∧ (pfCode acc p u r up).getLsbD 2 = u ∧
      (pfCode acc p u r up).getLsbD 3 = r ∧ (pfCode acc p u r up).getLsbD 4 = (acc == .fetch) ∧
      (pfCode acc p u r up).extractLsb' 5 27 = up := by
  refine ⟨?_, ?_, ?_, ?_, ?_, ?_⟩
  case refine_6 =>
    apply BitVec.eq_of_getLsbD_eq
    intro j hj
    simp only [pfCode, BitVec.getLsbD_extractLsb', BitVec.getLsbD_append]
    simp [hj]
  all_goals
    simp only [pfCode, bit1, BitVec.getLsbD_append]
    simp

/-! ## The exceptions of the memory operand (R181 steps 4 to 7) -/

/-- What reading the memory operand can raise: never #UD, #NM or #XM. -/
theorem State.operandFault_cases (s : State) {f : Form} {g : Seg} {a n : Nat} {x : Exc}
    (h : s.operandFault f g a n = some x) :
    x = .ss ∨ x = .gp ∨ x = .ac ∨ ∃ p u r up addr, x = .pf (pfCode .read p u r up) addr := by
  have seg : segExc g = .ss ∨ segExc g = .gp := by
    unfold segExc
    split <;> simp
  unfold State.operandFault at h
  split at h
  · cases h
    rcases seg with hg | hg <;> simp [hg]
  · split at h
    · cases h
      simp
    · split at h
      · cases h
        simp
      · split at h
        · rename_i e he
          cases h
          have ht := (s.translate_eq_some _ _ _ he).2
          simp only [XlatEntry.touches, Bool.and_eq_true, beq_iff_eq] at ht
          unfold XlatEntry.exc
          split
          · rename_i p u r up _
            exact .inr (.inr (.inr ⟨p, u, r, up, _, by rw [ht.1]⟩))
          · rcases seg with hg | hg <;> simp [hg]
        · cases h

end Sys2Proof.Machine
end

