-- ==== Sys2Proof/Laws/PerInstr.lean ====
section
/-! SUPPORT. Facts of every instruction as syntax, one lemma per constructor. -/

namespace Sys2Proof.Laws.EncodedLength

/-- `len` counts exactly the bytes of the encoding, and the shortest encoding has 3 bytes (R102). -/
def Statement (i : Instr) : Prop := (encode i).length = i.len ∧ 3 ≤ i.len

theorem xorps (e : Legacy) : Statement (.xorps e) := by
  have := e.rm.len_pos
  simp [Statement, encode, Legacy.bytes, Instr.len, Legacy.len]
  omega

theorem vxorpsVex128C5 (e : Vex2) : Statement (.vxorpsVex128C5 e) := by
  have := e.rm.len_pos
  simp [Statement, encode, Vex2.bytes, Instr.len, Vex2.len]
  omega

theorem vxorpsVex128C4 (e : Vex3) : Statement (.vxorpsVex128C4 e) := by
  have := e.rm.len_pos
  simp [Statement, encode, Vex3.bytes, Instr.len, Vex3.len]
  omega

theorem vxorpsVex256C5 (e : Vex2) : Statement (.vxorpsVex256C5 e) := by
  have := e.rm.len_pos
  simp [Statement, encode, Vex2.bytes, Instr.len, Vex2.len]
  omega

theorem vxorpsVex256C4 (e : Vex3) : Statement (.vxorpsVex256C4 e) := by
  have := e.rm.len_pos
  simp [Statement, encode, Vex3.bytes, Instr.len, Vex3.len]
  omega

theorem vxorpsEvex128 (e : Evex) : Statement (.vxorpsEvex128 e) := by
  have := e.rm.len_pos
  simp [Statement, encode, Evex.bytes, Instr.len, Evex.len]
  omega

theorem vxorpsEvex256 (e : Evex) : Statement (.vxorpsEvex256 e) := by
  have := e.rm.len_pos
  simp [Statement, encode, Evex.bytes, Instr.len, Evex.len]
  omega

theorem vxorpsEvex512 (e : Evex) : Statement (.vxorpsEvex512 e) := by
  have := e.rm.len_pos
  simp [Statement, encode, Evex.bytes, Instr.len, Evex.len]
  omega

end Sys2Proof.Laws.EncodedLength
end

