-- ==== Sys2Proof/Laws/State.lean ====
section
/-! SUPPORT. One lemma per field per update of the state, each true by rfl, so that no proof unfolds a record update. -/

namespace Sys2Proof.Machine

/-! ## Writing a vector register -/

@[simp] theorem State.writeZmm_cfg (s : State) (n : BitVec 5) (v : VReg) :
    (s.writeZmm n v).cfg = s.cfg := rfl
@[simp] theorem State.writeZmm_mode (s : State) (n : BitVec 5) (v : VReg) :
    (s.writeZmm n v).mode = s.mode := rfl
@[simp] theorem State.writeZmm_zmm (s : State) (n : BitVec 5) (v : VReg) :
    (s.writeZmm n v).zmm = s.zmm.set n.toNat v n.isLt := rfl
@[simp] theorem State.writeZmm_k (s : State) (n : BitVec 5) (v : VReg) :
    (s.writeZmm n v).k = s.k := rfl
@[simp] theorem State.writeZmm_x (s : State) (n : BitVec 5) (v : VReg) :
    (s.writeZmm n v).x = s.x := rfl
@[simp] theorem State.writeZmm_pc (s : State) (n : BitVec 5) (v : VReg) :
    (s.writeZmm n v).pc = s.pc := rfl
@[simp] theorem State.writeZmm_eflags (s : State) (n : BitVec 5) (v : VReg) :
    (s.writeZmm n v).eflags = s.eflags := rfl
@[simp] theorem State.writeZmm_mxcsr (s : State) (n : BitVec 5) (v : VReg) :
    (s.writeZmm n v).mxcsr = s.mxcsr := rfl
@[simp] theorem State.writeZmm_cr0 (s : State) (n : BitVec 5) (v : VReg) :
    (s.writeZmm n v).cr0 = s.cr0 := rfl
@[simp] theorem State.writeZmm_cr2 (s : State) (n : BitVec 5) (v : VReg) :
    (s.writeZmm n v).cr2 = s.cr2 := rfl
@[simp] theorem State.writeZmm_cr4 (s : State) (n : BitVec 5) (v : VReg) :
    (s.writeZmm n v).cr4 = s.cr4 := rfl
@[simp] theorem State.writeZmm_xcr0 (s : State) (n : BitVec 5) (v : VReg) :
    (s.writeZmm n v).xcr0 = s.xcr0 := rfl
@[simp] theorem State.writeZmm_csBase (s : State) (n : BitVec 5) (v : VReg) :
    (s.writeZmm n v).csBase = s.csBase := rfl
@[simp] theorem State.writeZmm_fsBase (s : State) (n : BitVec 5) (v : VReg) :
    (s.writeZmm n v).fsBase = s.fsBase := rfl
@[simp] theorem State.writeZmm_gsBase (s : State) (n : BitVec 5) (v : VReg) :
    (s.writeZmm n v).gsBase = s.gsBase := rfl
@[simp] theorem State.writeZmm_mem (s : State) (n : BitVec 5) (v : VReg) :
    (s.writeZmm n v).mem = s.mem := rfl
@[simp] theorem State.writeZmm_map (s : State) (n : BitVec 5) (v : VReg) :
    (s.writeZmm n v).map = s.map := rfl
@[simp] theorem State.writeZmm_xlat (s : State) (n : BitVec 5) (v : VReg) :
    (s.writeZmm n v).xlat = s.xlat := rfl
@[simp] theorem State.writeZmm_code (s : State) (n : BitVec 5) (v : VReg) :
    (s.writeZmm n v).code = s.code := rfl
@[simp] theorem State.writeZmm_reads (s : State) (n : BitVec 5) (v : VReg) :
    (s.writeZmm n v).reads = s.reads := rfl
@[simp] theorem State.writeZmm_fault (s : State) (n : BitVec 5) (v : VReg) :
    (s.writeZmm n v).fault = s.fault := rfl
@[simp] theorem State.writeZmm_draws (s : State) (n : BitVec 5) (v : VReg) :
    (s.writeZmm n v).draws = s.draws := rfl

/-! ## Setting the program counter -/

@[simp] theorem State.setPc_cfg (s : State) (a : Word) :
    (s.setPc a).cfg = s.cfg := rfl
@[simp] theorem State.setPc_mode (s : State) (a : Word) :
    (s.setPc a).mode = s.mode := rfl
@[simp] theorem State.setPc_zmm (s : State) (a : Word) :
    (s.setPc a).zmm = s.zmm := rfl
@[simp] theorem State.setPc_k (s : State) (a : Word) :
    (s.setPc a).k = s.k := rfl
@[simp] theorem State.setPc_x (s : State) (a : Word) :
    (s.setPc a).x = s.x := rfl
@[simp] theorem State.setPc_pc (s : State) (a : Word) :
    (s.setPc a).pc = a := rfl
@[simp] theorem State.setPc_eflags (s : State) (a : Word) :
    (s.setPc a).eflags = s.eflags := rfl
@[simp] theorem State.setPc_mxcsr (s : State) (a : Word) :
    (s.setPc a).mxcsr = s.mxcsr := rfl
@[simp] theorem State.setPc_cr0 (s : State) (a : Word) :
    (s.setPc a).cr0 = s.cr0 := rfl
@[simp] theorem State.setPc_cr2 (s : State) (a : Word) :
    (s.setPc a).cr2 = s.cr2 := rfl
@[simp] theorem State.setPc_cr4 (s : State) (a : Word) :
    (s.setPc a).cr4 = s.cr4 := rfl
@[simp] theorem State.setPc_xcr0 (s : State) (a : Word) :
    (s.setPc a).xcr0 = s.xcr0 := rfl
@[simp] theorem State.setPc_csBase (s : State) (a : Word) :
    (s.setPc a).csBase = s.csBase := rfl
@[simp] theorem State.setPc_fsBase (s : State) (a : Word) :
    (s.setPc a).fsBase = s.fsBase := rfl
@[simp] theorem State.setPc_gsBase (s : State) (a : Word) :
    (s.setPc a).gsBase = s.gsBase := rfl
@[simp] theorem State.setPc_mem (s : State) (a : Word) :
    (s.setPc a).mem = s.mem := rfl
@[simp] theorem State.setPc_map (s : State) (a : Word) :
    (s.setPc a).map = s.map := rfl
@[simp] theorem State.setPc_xlat (s : State) (a : Word) :
    (s.setPc a).xlat = s.xlat := rfl
@[simp] theorem State.setPc_code (s : State) (a : Word) :
    (s.setPc a).code = s.code := rfl
@[simp] theorem State.setPc_reads (s : State) (a : Word) :
    (s.setPc a).reads = s.reads := rfl
@[simp] theorem State.setPc_fault (s : State) (a : Word) :
    (s.setPc a).fault = s.fault := rfl
@[simp] theorem State.setPc_draws (s : State) (a : Word) :
    (s.setPc a).draws = s.draws := rfl

/-! ## Noting a read -/

@[simp] theorem State.noteReads_cfg (s : State) (es : List ReadEvent) (d : Nat) :
    (s.noteReads es d).cfg = s.cfg := rfl
@[simp] theorem State.noteReads_mode (s : State) (es : List ReadEvent) (d : Nat) :
    (s.noteReads es d).mode = s.mode := rfl
@[simp] theorem State.noteReads_zmm (s : State) (es : List ReadEvent) (d : Nat) :
    (s.noteReads es d).zmm = s.zmm := rfl
@[simp] theorem State.noteReads_k (s : State) (es : List ReadEvent) (d : Nat) :
    (s.noteReads es d).k = s.k := rfl
@[simp] theorem State.noteReads_x (s : State) (es : List ReadEvent) (d : Nat) :
    (s.noteReads es d).x = s.x := rfl
@[simp] theorem State.noteReads_pc (s : State) (es : List ReadEvent) (d : Nat) :
    (s.noteReads es d).pc = s.pc := rfl
@[simp] theorem State.noteReads_eflags (s : State) (es : List ReadEvent) (d : Nat) :
    (s.noteReads es d).eflags = s.eflags := rfl
@[simp] theorem State.noteReads_mxcsr (s : State) (es : List ReadEvent) (d : Nat) :
    (s.noteReads es d).mxcsr = s.mxcsr := rfl
@[simp] theorem State.noteReads_cr0 (s : State) (es : List ReadEvent) (d : Nat) :
    (s.noteReads es d).cr0 = s.cr0 := rfl
@[simp] theorem State.noteReads_cr2 (s : State) (es : List ReadEvent) (d : Nat) :
    (s.noteReads es d).cr2 = s.cr2 := rfl
@[simp] theorem State.noteReads_cr4 (s : State) (es : List ReadEvent) (d : Nat) :
    (s.noteReads es d).cr4 = s.cr4 := rfl
@[simp] theorem State.noteReads_xcr0 (s : State) (es : List ReadEvent) (d : Nat) :
    (s.noteReads es d).xcr0 = s.xcr0 := rfl
@[simp] theorem State.noteReads_csBase (s : State) (es : List ReadEvent) (d : Nat) :
    (s.noteReads es d).csBase = s.csBase := rfl
@[simp] theorem State.noteReads_fsBase (s : State) (es : List ReadEvent) (d : Nat) :
    (s.noteReads es d).fsBase = s.fsBase := rfl
@[simp] theorem State.noteReads_gsBase (s : State) (es : List ReadEvent) (d : Nat) :
    (s.noteReads es d).gsBase = s.gsBase := rfl
@[simp] theorem State.noteReads_mem (s : State) (es : List ReadEvent) (d : Nat) :
    (s.noteReads es d).mem = s.mem := rfl
@[simp] theorem State.noteReads_map (s : State) (es : List ReadEvent) (d : Nat) :
    (s.noteReads es d).map = s.map := rfl
@[simp] theorem State.noteReads_xlat (s : State) (es : List ReadEvent) (d : Nat) :
    (s.noteReads es d).xlat = s.xlat := rfl
@[simp] theorem State.noteReads_code (s : State) (es : List ReadEvent) (d : Nat) :
    (s.noteReads es d).code = s.code := rfl
@[simp] theorem State.noteReads_reads (s : State) (es : List ReadEvent) (d : Nat) :
    (s.noteReads es d).reads = s.reads ++ es := rfl
@[simp] theorem State.noteReads_fault (s : State) (es : List ReadEvent) (d : Nat) :
    (s.noteReads es d).fault = s.fault := rfl
@[simp] theorem State.noteReads_draws (s : State) (es : List ReadEvent) (d : Nat) :
    (s.noteReads es d).draws = d := rfl

/-! ## Placing a program -/

@[simp] theorem State.place_cfg (s : State) (bs : List Byte) :
    (s.place bs).cfg = s.cfg := rfl
@[simp] theorem State.place_mode (s : State) (bs : List Byte) :
    (s.place bs).mode = s.mode := rfl
@[simp] theorem State.place_zmm (s : State) (bs : List Byte) :
    (s.place bs).zmm = s.zmm := rfl
@[simp] theorem State.place_k (s : State) (bs : List Byte) :
    (s.place bs).k = s.k := rfl
@[simp] theorem State.place_x (s : State) (bs : List Byte) :
    (s.place bs).x = s.x := rfl
@[simp] theorem State.place_pc (s : State) (bs : List Byte) :
    (s.place bs).pc = s.pc := rfl
@[simp] theorem State.place_eflags (s : State) (bs : List Byte) :
    (s.place bs).eflags = s.eflags := rfl
@[simp] theorem State.place_mxcsr (s : State) (bs : List Byte) :
    (s.place bs).mxcsr = s.mxcsr := rfl
@[simp] theorem State.place_cr0 (s : State) (bs : List Byte) :
    (s.place bs).cr0 = s.cr0 := rfl
@[simp] theorem State.place_cr2 (s : State) (bs : List Byte) :
    (s.place bs).cr2 = s.cr2 := rfl
@[simp] theorem State.place_cr4 (s : State) (bs : List Byte) :
    (s.place bs).cr4 = s.cr4 := rfl
@[simp] theorem State.place_xcr0 (s : State) (bs : List Byte) :
    (s.place bs).xcr0 = s.xcr0 := rfl
@[simp] theorem State.place_csBase (s : State) (bs : List Byte) :
    (s.place bs).csBase = s.csBase := rfl
@[simp] theorem State.place_fsBase (s : State) (bs : List Byte) :
    (s.place bs).fsBase = s.fsBase := rfl
@[simp] theorem State.place_gsBase (s : State) (bs : List Byte) :
    (s.place bs).gsBase = s.gsBase := rfl
@[simp] theorem State.place_mem (s : State) (bs : List Byte) :
    (s.place bs).mem = memWriteBytes s.mem s.pc.toNat bs := rfl
@[simp] theorem State.place_map (s : State) (bs : List Byte) :
    (s.place bs).map = s.map := rfl
@[simp] theorem State.place_xlat (s : State) (bs : List Byte) :
    (s.place bs).xlat = s.xlat := rfl
@[simp] theorem State.place_code (s : State) (bs : List Byte) :
    (s.place bs).code = ⟨s.pc.toNat, bs.length⟩ := rfl
@[simp] theorem State.place_reads (s : State) (bs : List Byte) :
    (s.place bs).reads = s.reads := rfl
@[simp] theorem State.place_fault (s : State) (bs : List Byte) :
    (s.place bs).fault = s.fault := rfl
@[simp] theorem State.place_draws (s : State) (bs : List Byte) :
    (s.place bs).draws = s.draws := rfl

/-! ## Meeting the boot requirements -/

@[simp] theorem State.boot_cfg (s : State) :
    (s.boot).cfg = s.cfg := rfl
@[simp] theorem State.boot_mode (s : State) :
    (s.boot).mode = .mode64 := rfl
@[simp] theorem State.boot_zmm (s : State) :
    (s.boot).zmm = s.zmm := rfl
@[simp] theorem State.boot_k (s : State) :
    (s.boot).k = s.k := rfl
@[simp] theorem State.boot_x (s : State) :
    (s.boot).x = s.x := rfl
@[simp] theorem State.boot_pc (s : State) :
    (s.boot).pc = s.pc := rfl
@[simp] theorem State.boot_eflags (s : State) :
    (s.boot).eflags = s.eflags := rfl
@[simp] theorem State.boot_mxcsr (s : State) :
    (s.boot).mxcsr = s.mxcsr := rfl
@[simp] theorem State.boot_cr0 (s : State) :
    (s.boot).cr0 = clearBit (clearBit s.cr0 2) 3 := rfl
@[simp] theorem State.boot_cr2 (s : State) :
    (s.boot).cr2 = s.cr2 := rfl
@[simp] theorem State.boot_cr4 (s : State) :
    (s.boot).cr4 = setBit (setBit s.cr4 9) 18 := rfl
@[simp] theorem State.boot_xcr0 (s : State) :
    (s.boot).xcr0 = setBit (setBit (setBit (setBit (setBit s.xcr0 1) 2) 5) 6) 7 := rfl
@[simp] theorem State.boot_csBase (s : State) :
    (s.boot).csBase = s.csBase := rfl
@[simp] theorem State.boot_fsBase (s : State) :
    (s.boot).fsBase = s.fsBase := rfl
@[simp] theorem State.boot_gsBase (s : State) :
    (s.boot).gsBase = s.gsBase := rfl
@[simp] theorem State.boot_mem (s : State) :
    (s.boot).mem = s.mem := rfl
@[simp] theorem State.boot_map (s : State) :
    (s.boot).map = [⟨0, 2 ^ 64, .own⟩] := rfl
@[simp] theorem State.boot_xlat (s : State) :
    (s.boot).xlat = [] := rfl
@[simp] theorem State.boot_code (s : State) :
    (s.boot).code = s.code := rfl
@[simp] theorem State.boot_reads (s : State) :
    (s.boot).reads = s.reads := rfl
@[simp] theorem State.boot_fault (s : State) :
    (s.boot).fault = none := rfl
@[simp] theorem State.boot_draws (s : State) :
    (s.boot).draws = s.draws := rfl

/-! ## Recording a fault: only the record and CR2 change (R172, R183) -/

@[simp] theorem State.recordFault_cfg (s : State) (r : Fault) : (s.recordFault r).cfg = s.cfg := by
  obtain ⟨e, pc⟩ := r
  cases e <;> rfl
@[simp] theorem State.recordFault_mode (s : State) (r : Fault) : (s.recordFault r).mode = s.mode := by
  obtain ⟨e, pc⟩ := r
  cases e <;> rfl
@[simp] theorem State.recordFault_zmm (s : State) (r : Fault) : (s.recordFault r).zmm = s.zmm := by
  obtain ⟨e, pc⟩ := r
  cases e <;> rfl
@[simp] theorem State.recordFault_k (s : State) (r : Fault) : (s.recordFault r).k = s.k := by
  obtain ⟨e, pc⟩ := r
  cases e <;> rfl
@[simp] theorem State.recordFault_x (s : State) (r : Fault) : (s.recordFault r).x = s.x := by
  obtain ⟨e, pc⟩ := r
  cases e <;> rfl
@[simp] theorem State.recordFault_pc (s : State) (r : Fault) : (s.recordFault r).pc = s.pc := by
  obtain ⟨e, pc⟩ := r
  cases e <;> rfl
@[simp] theorem State.recordFault_eflags (s : State) (r : Fault) : (s.recordFault r).eflags = s.eflags := by
  obtain ⟨e, pc⟩ := r
  cases e <;> rfl
@[simp] theorem State.recordFault_mxcsr (s : State) (r : Fault) : (s.recordFault r).mxcsr = s.mxcsr := by
  obtain ⟨e, pc⟩ := r
  cases e <;> rfl
@[simp] theorem State.recordFault_cr0 (s : State) (r : Fault) : (s.recordFault r).cr0 = s.cr0 := by
  obtain ⟨e, pc⟩ := r
  cases e <;> rfl
@[simp] theorem State.recordFault_cr4 (s : State) (r : Fault) : (s.recordFault r).cr4 = s.cr4 := by
  obtain ⟨e, pc⟩ := r
  cases e <;> rfl
@[simp] theorem State.recordFault_xcr0 (s : State) (r : Fault) : (s.recordFault r).xcr0 = s.xcr0 := by
  obtain ⟨e, pc⟩ := r
  cases e <;> rfl
@[simp] theorem State.recordFault_csBase (s : State) (r : Fault) : (s.recordFault r).csBase = s.csBase := by
  obtain ⟨e, pc⟩ := r
  cases e <;> rfl
@[simp] theorem State.recordFault_fsBase (s : State) (r : Fault) : (s.recordFault r).fsBase = s.fsBase := by
  obtain ⟨e, pc⟩ := r
  cases e <;> rfl
@[simp] theorem State.recordFault_gsBase (s : State) (r : Fault) : (s.recordFault r).gsBase = s.gsBase := by
  obtain ⟨e, pc⟩ := r
  cases e <;> rfl
@[simp] theorem State.recordFault_mem (s : State) (r : Fault) : (s.recordFault r).mem = s.mem := by
  obtain ⟨e, pc⟩ := r
  cases e <;> rfl
@[simp] theorem State.recordFault_map (s : State) (r : Fault) : (s.recordFault r).map = s.map := by
  obtain ⟨e, pc⟩ := r
  cases e <;> rfl
@[simp] theorem State.recordFault_xlat (s : State) (r : Fault) : (s.recordFault r).xlat = s.xlat := by
  obtain ⟨e, pc⟩ := r
  cases e <;> rfl
@[simp] theorem State.recordFault_code (s : State) (r : Fault) : (s.recordFault r).code = s.code := by
  obtain ⟨e, pc⟩ := r
  cases e <;> rfl
@[simp] theorem State.recordFault_reads (s : State) (r : Fault) : (s.recordFault r).reads = s.reads := by
  obtain ⟨e, pc⟩ := r
  cases e <;> rfl
@[simp] theorem State.recordFault_draws (s : State) (r : Fault) : (s.recordFault r).draws = s.draws := by
  obtain ⟨e, pc⟩ := r
  cases e <;> rfl
@[simp] theorem State.recordFault_fault (s : State) (r : Fault) : (s.recordFault r).fault = some r := by
  obtain ⟨e, pc⟩ := r
  cases e <;> rfl

/-! ## Reading registers after an update -/

@[simp] theorem State.zreg_writeZmm_same (s : State) (n : BitVec 5) (v : VReg) : (s.writeZmm n v).zreg n = v := by
  simp [State.zreg, State.writeZmm]

theorem State.zreg_writeZmm_other (s : State) {n m : BitVec 5} (v : VReg) (h : m ≠ n) :
    (s.writeZmm n v).zreg m = s.zreg m := by
  have hne : n.toNat ≠ m.toNat := fun e => h (BitVec.eq_of_toNat_eq e.symm)
  simp [State.zreg, State.writeZmm, hne]

@[simp] theorem State.zreg_setPc (s : State) (a : Word) (n : BitVec 5) : (s.setPc a).zreg n = s.zreg n := rfl
@[simp] theorem State.zreg_noteReads (s : State) (es : List ReadEvent) (d : Nat) (n : BitVec 5) :
    (s.noteReads es d).zreg n = s.zreg n := rfl
@[simp] theorem State.kreg_writeZmm (s : State) (m : BitVec 5) (v : VReg) (n : BitVec 3) :
    (s.writeZmm m v).kreg n = s.kreg n := rfl
@[simp] theorem State.kreg_setPc (s : State) (a : Word) (n : BitVec 3) : (s.setPc a).kreg n = s.kreg n := rfl
@[simp] theorem State.kreg_noteReads (s : State) (es : List ReadEvent) (d : Nat) (n : BitVec 3) :
    (s.noteReads es d).kreg n = s.kreg n := rfl

end Sys2Proof.Machine
end

