-- ==== Sys2Proof/Laws/Vector.lean ====
section
/-! SUPPORT. What the operations on vector values do, bit by bit and element by element. -/

namespace Sys2Proof.Machine

@[simp] theorem getLsbD_low (n : Nat) (v : VReg) (i : Nat) :
    (low n v).getLsbD i = (decide (i < n) && v.getLsbD i) := by
  unfold low
  rw [BitVec.getLsbD_setWidth, BitVec.getLsbD_setWidth]
  by_cases h : i < 512
  · simp [h]
  · simp [h, BitVec.getLsbD_of_ge v i (by omega)]

@[simp] theorem getLsbD_setLow (n : Nat) (old new : VReg) (i : Nat) :
    (setLow n old new).getLsbD i = if i < n then new.getLsbD i else old.getLsbD i := by
  unfold setLow
  rw [BitVec.getLsbD_or, BitVec.getLsbD_shiftLeft, BitVec.getLsbD_ushiftRight, getLsbD_low]
  by_cases h : i < n
  · simp [h]
  · by_cases h5 : i < 512
    · simp [h, h5, show n + (i - n) = i by omega]
    · simp [h, h5, BitVec.getLsbD_of_ge old i (by omega)]

theorem getLsbD_lane (v : VReg) (j i : Nat) :
    (lane v j).getLsbD i = (decide (i < 32) && v.getLsbD (32 * j + i)) := by
  simp [lane, BitVec.getLsbD_extractLsb']

theorem getLsbD_ofLanes (n : Nat) (f : Nat → Lane) (hn : n ≤ 16) (i : Nat) :
    (ofLanes n f).getLsbD i = (decide (i < 32 * n) && (f (i / 32)).getLsbD (i % 32)) := by
  induction n with
  | zero => simp [ofLanes]
  | succ n ih =>
    rw [ofLanes, BitVec.getLsbD_or, ih (by omega), BitVec.getLsbD_shiftLeft, BitVec.getLsbD_setWidth]
    by_cases h : i < 32 * n
    · simp [h, show i < 32 * (n + 1) by omega]
    · by_cases h2 : i < 32 * (n + 1)
      · have hd : i / 32 = n := by omega
        have hm : i - 32 * n = i % 32 := by omega
        simp [h, h2, hd, hm, show i < 512 by omega, show i % 32 < 512 by omega]
      · have hge : 32 ≤ i - 32 * n := by omega
        simp [h, h2, BitVec.getLsbD_of_ge (f n) _ hge]

theorem lane_ofLanes (n : Nat) (f : Nat → Lane) (hn : n ≤ 16) (j : Nat) :
    lane (ofLanes n f) j = if j < n then f j else 0 := by
  apply BitVec.eq_of_getLsbD_eq
  intro i hi
  rw [getLsbD_lane, getLsbD_ofLanes n f hn]
  have hd : (32 * j + i) / 32 = j := by omega
  have hm : (32 * j + i) % 32 = i := by omega
  by_cases h : j < n
  · simp [h, hi, hd, hm, show 32 * j + i < 32 * n by omega]
  · simp [h, show ¬ 32 * j + i < 32 * n by omega]

theorem lane_repl (n : Nat) (t : Lane) (hn : n ≤ 16) (j : Nat) :
    lane (repl n t) j = if j < n then t else 0 := lane_ofLanes n _ hn j

/-- Two register values with the same elements are the same. -/
theorem eq_of_lane_eq {v w : VReg} (h : ∀ j < 16, lane v j = lane w j) : v = w := by
  apply BitVec.eq_of_getLsbD_eq
  intro i hi
  have hl : (lane v (i / 32)).getLsbD (i % 32) = (lane w (i / 32)).getLsbD (i % 32) := by rw [h (i / 32) (by omega)]
  have hm : i % 32 < 32 := by omega
  have hs : 32 * (i / 32) + i % 32 = i := by omega
  rw [getLsbD_lane, getLsbD_lane, hs] at hl
  simpa only [hm, decide_true, Bool.true_and] using hl

theorem form_kl_le (f : Form) : f.kl ≤ 16 := by cases f <;> decide

theorem form_vl_eq (f : Form) : f.vl = 32 * f.kl := by cases f <;> decide

theorem lane_low (n : Nat) (v : VReg) (j : Nat) : lane (low (32 * n) v) j = if j < n then lane v j else 0 := by
  apply BitVec.eq_of_getLsbD_eq
  intro i hi
  rw [getLsbD_lane, getLsbD_low]
  split
  · rw [getLsbD_lane]
    simp [hi, show 32 * j + i < 32 * n by omega]
  · simp [show ¬ 32 * j + i < 32 * n by omega]

theorem lane_setLow (n : Nat) (old new : VReg) (j : Nat) :
    lane (setLow (32 * n) old new) j = if j < n then lane new j else lane old j := by
  apply BitVec.eq_of_getLsbD_eq
  intro i hi
  rw [getLsbD_lane, getLsbD_setLow]
  by_cases h : j < n
  · rw [if_pos h, getLsbD_lane]
    simp [hi, show 32 * j + i < 32 * n by omega]
  · rw [if_neg h, getLsbD_lane]
    simp [hi, show ¬ 32 * j + i < 32 * n by omega]

theorem lane_xor (a b : VReg) (j : Nat) : lane (a ^^^ b) j = lane a j ^^^ lane b j := by
  apply BitVec.eq_of_getLsbD_eq
  intro i hi
  rw [getLsbD_lane, BitVec.getLsbD_xor, BitVec.getLsbD_xor, getLsbD_lane, getLsbD_lane]
  simp [hi]

/-- `zext(S1 XOR S2)` by elements (R140, R141). -/
theorem lane_vexXor (f : Form) (old a b : VReg) (j : Nat) :
    lane (vexXor f old a b) j = if j < f.kl then lane a j ^^^ lane b j else 0 := by
  unfold vexXor
  rw [form_vl_eq, lane_low, lane_xor]

/-- `EvexXor` by elements (R150, R155). -/
theorem lane_evexXor (f : Form) (act : Nat → Bool) (z : Bool) (old a b : VReg) (j : Nat) :
    lane (evexXor f act z old a b) j =
      if j < f.kl then (if act j then lane a j ^^^ lane b j else if z then 0 else lane old j) else 0 :=
  lane_ofLanes _ _ (form_kl_le f) j

/-- `zext(S1 XOR S2)` by bits (R140, R141). -/
theorem getLsbD_vexXor (f : Form) (old a b : VReg) (i : Nat) :
    (vexXor f old a b).getLsbD i = (decide (i < f.vl) && (a.getLsbD i ^^ b.getLsbD i)) := by
  simp [vexXor]

/-- Shifting out every bit that may be set leaves nothing. -/
theorem shiftRight_eq_zero {v : VReg} {n : Nat} (h : ∀ i, n ≤ i → v.getLsbD i = false) : v >>> n = 0 := by
  apply BitVec.eq_of_getLsbD_eq
  intro i _
  rw [BitVec.getLsbD_ushiftRight, h _ (by omega)]
  simp

theorem getLsbD_of_shiftRight_eq_zero {v : VReg} {n : Nat} (h : v >>> n = 0) {i : Nat} (hi : n ≤ i) :
    v.getLsbD i = false := by
  have := congrArg (fun x => x.getLsbD (i - n)) h
  simpa [BitVec.getLsbD_ushiftRight, show n + (i - n) = i by omega] using this

end Sys2Proof.Machine
end

