-- ==== Sys2Proof/Laws/Run.lean ====
section
/-! SUPPORT. Everything the shared frame of the instructions can do, said once: when the checks let an instruction through,
what reading the second source gives, what a completed step is, and that every arm of `exec` is this frame. -/

namespace Sys2Proof.Machine

/-- What each instruction writes, from the old destination and the two sources. -/
def combineOf (s : State) : Instr → VReg → VReg → VReg → VReg
  | .xorps _          => fun old a b => setLow 128 old (a ^^^ b)
  | .vxorpsVex128C5 _ => vexXor .vex128
  | .vxorpsVex128C4 _ => vexXor .vex128
  | .vxorpsVex256C5 _ => vexXor .vex256
  | .vxorpsVex256C4 _ => vexXor .vex256
  | .vxorpsEvex128 e  => evexXor .evex128 (s.active e.aaa) e.z
  | .vxorpsEvex256 e  => evexXor .evex256 (s.active e.aaa) e.z
  | .vxorpsEvex512 e  => evexXor .evex512 (s.active e.aaa) e.z

theorem Stop.outcome_ne_next (stop : Stop) (t : State) : stop.outcome ≠ .next t := by cases stop <;> simp [Stop.outcome]

/-- Every arm of `exec` is the shared frame. -/
theorem exec_eq_runForm (i : Instr) (s : State) :
    exec i s = s.runForm i.form (illegalOf i) i.bcast (operandsOf i) (combineOf s i) := by
  cases i <;> rfl

/-- An instruction passes the checks exactly when its form executes normally and its own fields are legal. -/
theorem State.gate_eq_none (s : State) (f : Form) (illegal : Bool) :
    s.gate f illegal = none ↔ s.ready f = true ∧ illegal = false := by
  unfold State.gate State.ready State.enabled
  by_cases hm : s.mode = .mode64
  · have hr : s.realOrV86 = false := by simp [State.realOrV86, hm]
    cases h1 : s.cfg.valid <;> cases h2 : admits s.cfg.features f <;> cases h3 : s.usable f <;> cases h4 : s.ts <;>
      cases illegal <;> simp [hm, hr]
  · simp only [show (s.mode == Mode.mode64) = false by simpa using hm]
    split
    · simp
    · split
      · simp
      · simp

/-- The state a completed step leaves. -/
def State.completed (s : State) (o : Operands) (v : VReg) (l : Loaded) : State :=
  ((s.writeZmm o.dest v).noteReads l.events l.draws).setPc (s.pc + BitVec.ofNat 64 o.len)

/-- A completed step: the checks passed, the second source was read, the next pc is in range, and one register, the event
history, the counter of free values and the pc were written. -/
theorem State.runForm_eq_next (s t : State) (f : Form) (illegal bcast : Bool) (o : Operands)
    (c : VReg → VReg → VReg → VReg) :
    s.runForm f illegal bcast o c = .next t ↔
      s.gate f illegal = none ∧ s.nextPcOk o.len = true ∧
        ∃ l, s.loadSrc2 f bcast o = .ok l ∧ t = s.completed o (c (s.zreg o.dest) (s.zreg o.src1) l.value) l := by
  unfold State.runForm
  cases hg : s.gate f illegal with
  | some stop => cases stop <;> simp [Stop.outcome]
  | none =>
    cases hl : s.loadSrc2 f bcast o with
    | error stop => cases stop <;> simp [Stop.outcome]
    | ok l =>
      simp only [State.advance]
      have hn : (((s.writeZmm o.dest (c (s.zreg o.dest) (s.zreg o.src1) l.value)).noteReads l.events l.draws).nextPcOk o.len)
          = s.nextPcOk o.len := rfl
      rw [hn]
      cases s.nextPcOk o.len <;> simp [State.completed, eq_comm]

/-- A fault of an instruction: the checks raised it, or reading the second source did. -/
theorem State.runForm_eq_fault (s : State) (r : Fault) (f : Form) (illegal bcast : Bool) (o : Operands)
    (c : VReg → VReg → VReg → VReg) :
    s.runForm f illegal bcast o c = .fault r ↔
      s.gate f illegal = some (.fault r) ∨ (s.gate f illegal = none ∧ s.loadSrc2 f bcast o = .error (.fault r)) := by
  unfold State.runForm
  cases hg : s.gate f illegal with
  | some stop => cases stop <;> simp [Stop.outcome]
  | none =>
    cases hl : s.loadSrc2 f bcast o with
    | error stop => cases stop <;> simp [Stop.outcome]
    | ok l =>
      simp only [State.advance]
      split <;> simp

/-- A refusal of an instruction: the checks, the read of undeclared memory, or the next pc. -/
theorem State.runForm_eq_refused (s : State) (r : Refusal) (f : Form) (illegal bcast : Bool) (o : Operands)
    (c : VReg → VReg → VReg → VReg) :
    s.runForm f illegal bcast o c = .refused r ↔
      s.gate f illegal = some (.refused r) ∨
        (s.gate f illegal = none ∧ s.loadSrc2 f bcast o = .error (.refused r)) ∨
        (s.gate f illegal = none ∧ (∃ l, s.loadSrc2 f bcast o = .ok l) ∧ s.nextPcOk o.len = false ∧
          r = .nextPcOutOfRange) := by
  unfold State.runForm
  cases hg : s.gate f illegal with
  | some stop => cases stop <;> simp [Stop.outcome]
  | none =>
    cases hl : s.loadSrc2 f bcast o with
    | error stop => cases stop <;> simp [Stop.outcome]
    | ok l =>
      simp only [State.advance]
      have hn : (((s.writeZmm o.dest (c (s.zreg o.dest) (s.zreg o.src1) l.value)).noteReads l.events l.draws).nextPcOk o.len)
          = s.nextPcOk o.len := rfl
      rw [hn]
      cases s.nextPcOk o.len <;> simp [eq_comm]

/-- A register second source is always read: its low VL bits, with no memory access (R50). -/
theorem State.loadSrc2_reg (s : State) (f : Form) (bcast : Bool) (o : Operands) {n : BitVec 5} (h : o.src2 = .reg n) :
    s.loadSrc2 f bcast o = .ok ⟨low f.vl (s.zreg n), [], s.draws⟩ := by
  simp [State.loadSrc2, h]

/-- A memory second source that raises no exception and lies in plain memory is read by one read event (R50, R57). -/
theorem State.loadSrc2_mem_ok (s : State) (f : Form) (bcast : Bool) (o : Operands) {m : MemRef} (h : o.src2 = .mem m)
    (l : Loaded) :
    s.loadSrc2 f bcast o = .ok l ↔
      s.operandFault f (operandSeg o m) (s.lin o m).toNat (operandSize f bcast) = none ∧
        ∃ bs d, s.readBytes (operandSize f bcast) (s.lin o m).toNat s.draws = some (bs, d) ∧
          l = ⟨operandValue f bcast bs, [⟨(s.lin o m).toNat, bs⟩], d⟩ := by
  simp only [State.loadSrc2, h, State.loadMem]
  split
  · rename_i hf; simp [hf]
  · rename_i hf
    split
    · rename_i hr; simp [hf, hr]
    · rename_i bs d hr
      simp [hf, hr, eq_comm]

/-- A memory second source raises exactly the first exception of R181 steps 4 to 7. -/
theorem State.loadSrc2_mem_fault (s : State) (f : Form) (bcast : Bool) (o : Operands) {m : MemRef} (h : o.src2 = .mem m)
    (r : Fault) :
    s.loadSrc2 f bcast o = .error (.fault r) ↔
      ∃ e, s.operandFault f (operandSeg o m) (s.lin o m).toNat (operandSize f bcast) = some e ∧ r = .exception e s.pc := by
  simp only [State.loadSrc2, h, State.loadMem]
  split
  · rename_i e hf; simp [hf, State.raise, eq_comm]
  · rename_i hf
    split <;> simp [hf]

/-- A memory second source is refused exactly when it raises nothing and some byte is not declared as plain memory. -/
theorem State.loadSrc2_mem_refused (s : State) (f : Form) (bcast : Bool) (o : Operands) {m : MemRef} (h : o.src2 = .mem m)
    (r : Refusal) :
    s.loadSrc2 f bcast o = .error (.refused r) ↔
      s.operandFault f (operandSeg o m) (s.lin o m).toNat (operandSize f bcast) = none ∧
        s.plainBytes (s.lin o m).toNat (operandSize f bcast) = false ∧ r = .undeclaredMemory := by
  have hp := s.readBytes_isSome (operandSize f bcast) (s.lin o m).toNat s.draws
  simp only [State.loadSrc2, h, State.loadMem]
  split
  · rename_i e hf; simp [hf, State.raise]
  · rename_i hf
    split
    · rename_i hr; rw [hr] at hp; simp [hf, ← hp, eq_comm]
    · rename_i hr; rw [hr] at hp; simp [hf, ← hp]

/-- No exception among R181 steps 4 to 7. -/
theorem State.operandFault_eq_none (s : State) (f : Form) (g : Seg) (a n : Nat) :
    s.operandFault f g a n = none ↔
      canonicalRange s.cfg.va.bits a n = true ∧ ¬ (f = .sse ∧ a % 16 ≠ 0) ∧ s.acFault f a n = false ∧
        s.translate a n .read = none := by
  unfold State.operandFault
  cases canonicalRange s.cfg.va.bits a n
  · simp
  · by_cases h2 : f = .sse ∧ a % 16 ≠ 0
    · simp [h2]
    · cases h3 : s.acFault f a n
      · cases h4 : s.translate a n .read <;> simp [h2]
      · simp [h2]

/-- A fault of the checks is #UD or #NM, at the instruction's pc (R173 to R176). -/
theorem State.gate_eq_fault {s : State} {f : Form} {illegal : Bool} {r : Fault} (h : s.gate f illegal = some (.fault r)) :
    r = .exception .ud s.pc ∨ r = .exception .nm s.pc := by
  unfold State.gate at h
  repeat' split at h
  all_goals simp [State.raise] at h
  all_goals simp [← h]

/-- The checks in 64-bit mode, in a configuration of the model. -/
theorem State.gate_mode64 {s : State} (f : Form) (illegal : Bool) (hv : s.cfg.valid = true) (hm : s.mode = .mode64) :
    s.gate f illegal =
      if (illegal || !admits s.cfg.features f || !s.usable f) = true then some (s.raise .ud)
      else if s.ts = true then some (s.raise .nm) else none := by
  have hr : s.realOrV86 = false := by simp [State.realOrV86, hm]
  simp [State.gate, hv, hr, hm]

/-- A fault of the second source is the memory operand's. -/
theorem State.loadSrc2_eq_fault {s : State} {f : Form} {bcast : Bool} {o : Operands} {r : Fault}
    (h : s.loadSrc2 f bcast o = .error (.fault r)) :
    ∃ m x, o.src2 = .mem m ∧
      s.operandFault f (operandSeg o m) (s.lin o m).toNat (operandSize f bcast) = some x ∧ r = .exception x s.pc := by
  cases hs : o.src2 with
  | reg n =>
    rw [State.loadSrc2_reg _ _ _ _ hs] at h
    cases h
  | mem m =>
    obtain ⟨x, hx, hr⟩ := (State.loadSrc2_mem_fault _ _ _ _ hs _).1 h
    exact ⟨m, x, rfl, hx, hr⟩

/-! ## The state of a completed step -/

theorem State.completed_zreg (s : State) (o : Operands) (v : VReg) (l : Loaded) (n : BitVec 5) :
    (s.completed o v l).zreg n = if n = o.dest then v else s.zreg n := by
  simp only [State.completed, State.zreg, State.setPc_zmm, State.noteReads_zmm, State.writeZmm_zmm, Vector.getElem_set]
  by_cases h : n = o.dest
  · simp [h]
  · have hn : o.dest.toNat ≠ n.toNat := fun h' => h (BitVec.eq_of_toNat_eq h'.symm)
    simp [h, hn]

theorem State.completed_unchanged (s : State) (o : Operands) (v : VReg) (l : Loaded) :
    UnchangedBut o.dest s (s.completed o v l) := by
  constructor <;> try rfl
  · intro n hn
    simp [State.completed_zreg, hn]
  · intro a
    rfl

theorem State.completed_pc {s : State} {o : Operands} (v : VReg) (l : Loaded) (h : s.nextPcOk o.len = true) :
    (s.completed o v l).pc.toNat = s.pc.toNat + o.len := by
  have hlt := State.lt_of_nextPcOk h
  simp only [State.completed, State.setPc_pc, BitVec.toNat_add, BitVec.toNat_ofNat]
  omega

/-- A completed instruction, in full. -/
theorem exec_eq_next {i : Instr} {s t : State} :
    exec i s = .next t ↔
      Runnable s i ∧ ∃ l, s.loadSrc2 i.form i.bcast (operandsOf i) = .ok l ∧
        t = s.completed (operandsOf i)
          (combineOf s i (s.zreg (operandsOf i).dest) (s.zreg (operandsOf i).src1) l.value) l := by
  rw [exec_eq_runForm, State.runForm_eq_next, State.gate_eq_none, operandsOf_len]
  exact ⟨fun ⟨⟨h1, h2⟩, h3, h4⟩ => ⟨⟨h1, h2, h3⟩, h4⟩, fun ⟨⟨h1, h2, h3⟩, h4⟩ => ⟨⟨h1, h2⟩, h3, h4⟩⟩

/-- An instruction whose checks pass raises what its memory operand raises. -/
theorem exec_eq_operandFault {i : Instr} {s : State} {m : MemRef} (hr : s.ready i.form = true)
    (hl : illegalOf i = false) (hm : (operandsOf i).src2 = .mem m) (x : Exc) :
    exec i s = .fault (.exception x s.pc) ↔
      s.operandFault i.form (operandSeg (operandsOf i) m) (s.readAddr i m) (readSize i) = some x := by
  rw [exec_eq_runForm, State.runForm_eq_fault, (s.gate_eq_none _ _).2 ⟨hr, hl⟩, State.loadSrc2_mem_fault _ _ _ _ hm]
  simp [State.readAddr, readSize]

/-- A memory operand that is clear raises nothing. -/
theorem OperandClear.operandFault {i : Instr} {s : State} {m : MemRef} (h : OperandClear s i m) (g : Seg) :
    s.operandFault i.form g (s.readAddr i m) (readSize i) = none := by
  rw [State.operandFault_eq_none]
  exact ⟨h.canonical, fun ⟨h1, h2⟩ => h2 (h.aligned h1), h.unchecked, h.mapped⟩

theorem combineOf_vex {i : Instr} (h : isVex i = true) (s : State) : combineOf s i = vexXor i.form := by
  cases i <;> simp [isVex] at h <;> rfl

theorem combineOf_evex {i : Instr} {e : Evex} (h : evexOf i = some e) (s : State) :
    combineOf s i = evexXor i.form (s.active e.aaa) e.z := by
  cases i <;> simp [evexOf] at h <;> subst h <;> rfl

/-- The elements of a memory second source, from its bytes (R53, R54, R156). -/
theorem lane_operandValue (i : Instr) (bs : List Byte) {j : Nat} (hj : j < i.form.kl) :
    lane (operandValue i.form i.bcast bs) j = elementOf i bs j := by
  have h16 := form_kl_le i.form
  unfold operandValue elementOf
  cases i.bcast with
  | true =>
    have h := lane_leNat bs 0 (by omega)
    rw [if_pos rfl, if_pos rfl, lane_repl _ _ h16, if_pos hj, ← h]
    apply BitVec.eq_of_getLsbD_eq
    intro k hk
    rw [getLsbD_lane, BitVec.getLsbD_ofNat, BitVec.getLsbD_ofNat]
    simp [hk, show k < 512 by omega]
  | false => exact lane_leNat bs j (by omega)

theorem active_iff (s : State) (e : Evex) (j : Nat) : s.active e.aaa j = true ↔ selected s e j := by
  simp [State.active, selected]

end Sys2Proof.Machine
end

