-- ==== Sys2Proof/Laws/Step.lean ====
section
/-! SUPPORT. What a step can do, said once, and what the fetch gives. -/

namespace Sys2Proof.Machine

/-- A step that answers a next state ran the instruction decoded at pc, in 64-bit mode, inside the code region, with no
fault recorded. -/
theorem step_eq_next {s t : State} (h : step s = .next t) :
    s.fault = none ∧ s.mode = .mode64 ∧ inRange s.pc.toNat s.code.base s.code.size = true ∧
      ∃ i rest, decode s.fetch.1 = .ok (i, rest) ∧ exec i s = .next t := by
  unfold step at h
  split at h
  · cases h
  · rename_i hf
    split at h
    · cases h
    · rename_i hm
      split at h
      · cases h
      · split at h
        · cases h
        · rename_i hr
          split at h
          · rename_i i rest hd
            exact ⟨hf, by simpa using hm, by simpa using hr, i, rest, hd, h⟩
          · exact absurd h (Stop.outcome_ne_next _ t)

/-- A step whose checks pass decodes the bytes at pc. -/
theorem step_of_inRange {s : State} (hf : s.fault = none) (hm : s.mode = .mode64)
    (hr : inRange s.pc.toNat s.code.base s.code.size = true) :
    step s = match decode s.fetch.1 with
      | .ok (i, _) => exec i s
      | .error r   => (s.rejected r s.fetch.2).outcome := by
  have he : s.pc.toNat ≠ s.code.base + s.code.size := by
    simp [inRange] at hr
    omega
  cases hd : decode s.fetch.1 <;> simp [step, hf, hm, he, hr, hd]

/-- A step whose checks pass runs the decoded instruction. -/
theorem step_of_decode {s : State} (hf : s.fault = none) (hm : s.mode = .mode64)
    (hr : inRange s.pc.toNat s.code.base s.code.size = true) {i : Instr} {rest : List Byte}
    (hd : decode s.fetch.1 = .ok (i, rest)) : step s = exec i s := by
  rw [step_of_inRange hf hm hr, hd]

/-- A byte of the code region can be fetched exactly when nothing stops its fetch (R59, R64, R181). -/
theorem State.fetchable_iff (s : State) (a : Nat) :
    s.fetchable a ↔ inRange a s.code.base s.code.size = true ∧ s.fetchFault a = none := by
  unfold State.fetchable State.fetchFault
  cases canonical s.cfg.va.bits a <;> cases s.translate a 1 .fetch <;> simp

/-- The fetch begins with every run of fetchable bytes at its address, and goes on after it (R54, R64). -/
theorem State.fetchBytes_add (s : State) (n k a : Nat) (h : ∀ j < n, s.fetchable (a + j)) :
    s.fetchBytes (n + k) a =
      ((List.range n).map (fun j => memRead s.mem (a + j)) ++ (s.fetchBytes k (a + n)).1, (s.fetchBytes k (a + n)).2) := by
  induction n generalizing a with
  | zero => simp
  | succ n ih =>
    have h0 := (s.fetchable_iff a).1 (by simpa using h 0 (by omega))
    have h1 : ∀ j < n, s.fetchable (a + 1 + j) := fun j hj => by
      have := h (j + 1) (by omega)
      rwa [show a + (j + 1) = a + 1 + j by omega] at this
    rw [show n + 1 + k = n + k + 1 by omega]
    simp only [State.fetchBytes, h0.1, h0.2, if_true, ih (a + 1) h1]
    rw [List.range_succ_eq_map, show a + 1 + n = a + (n + 1) by omega]
    simp [Function.comp_def, Nat.add_assoc, Nat.add_comm 1]

/-- The fetch ends at a byte of the code region that cannot be fetched (R59, R181). -/
theorem State.fetchBytes_fault {s : State} {a : Nat} {e : Exc} (hr : inRange a s.code.base s.code.size = true)
    (hf : s.fetchFault a = some e) (k : Nat) : s.fetchBytes (k + 1) a = ([], .faulting e) := by
  simp [State.fetchBytes, hr, hf]

/-- Bytes that stand at pc and can be fetched are where the fetch begins. -/
theorem State.fetch_of_fetches {s : State} {bs : List Byte} (h : s.fetches bs) (hl : bs.length ≤ maxLen) :
    s.fetch = (bs ++ (s.fetchBytes (maxLen - bs.length) (s.pc.toNat + bs.length)).1,
      (s.fetchBytes (maxLen - bs.length) (s.pc.toNat + bs.length)).2) := by
  have hb : (List.range bs.length).map (fun j => memRead s.mem (s.pc.toNat + j)) = bs := by
    apply List.ext_getElem?
    intro j
    by_cases hj : j < bs.length
    · rw [(h j hj).2]
      simp [hj]
    · rw [List.getElem?_eq_none (by simp; omega), List.getElem?_eq_none (by omega)]
  have := s.fetchBytes_add bs.length (maxLen - bs.length) s.pc.toNat (fun j hj => (h j hj).1)
  rwa [hb, Nat.add_sub_cancel' hl] at this

/-- A run of bytes that can be fetched begins inside the code region. -/
theorem State.inRange_of_fetches {s : State} {bs : List Byte} (h : s.fetches bs) (h0 : bs ≠ []) :
    inRange s.pc.toNat s.code.base s.code.size = true := by
  simpa using (h 0 (List.length_pos_of_ne_nil h0)).1.1

/-- Bytes that no decoder accepts, whatever follows them, end the step as their rejection says. -/
theorem noInstruction_of {bs : List Byte} {why : Reject} {out : State → Host.Outcome State Fault Refusal} (h0 : bs ≠ [])
    (hd : ∀ rest, decode (bs ++ rest) = .error why) (ho : ∀ s w, (s.rejected why w).outcome = out s) :
    NoInstruction bs why out := by
  refine ⟨hd, fun s hf hm hl h => ?_⟩
  rw [step_of_inRange hf hm (State.inRange_of_fetches h h0), State.fetch_of_fetches h hl]
  simp only [hd, ho]

/-- The fetch gives at most as many bytes as the longest instruction has. -/
theorem State.length_fetchBytes (s : State) (k a : Nat) : (s.fetchBytes k a).1.length ≤ k := by
  induction k generalizing a with
  | zero => simp [State.fetchBytes]
  | succ k ih =>
    simp only [State.fetchBytes]
    split
    · split
      · simp
      · simpa using ih (a + 1)
    · simp

end Sys2Proof.Machine
end

