-- ==== Sys2Proof/Tests/Slice0.lean ====
section
/-! SUPPORT. Tests of the model: WellFormed refuses an ill-formed term of each kind, the decoder reads bytes written out from the
spec's encodings, single steps give the values of 95_test_vectors.md, and every statement's hypotheses are met by a concrete
state. Expected values are the spec's own vectors (their ids stand in the comments). -/

namespace Sys2Proof.Tests

open Sys2Proof Sys2Proof.Machine

/-! ## Helpers -/

/-- The launch of the vectors' conventions: reset, the boot requirements met, pc = 1000h. -/
def launch : State := { State.reset.boot with pc := 0x1000 }

/-- A register value from its elements, element 0 first. -/
def zof (l : List Lane) : VReg := ofLanes 16 (fun j => l.getD j 0)

/-- Sixteen equal elements. -/
def all16 (v : Lane) : VReg := repl 16 v

def withX (s : State) (n : BitVec 4) (v : Word) : State := { s with x := s.x.set n.toNat v n.isLt }

def withK (s : State) (n : BitVec 3) (v : BitVec 64) : State := { s with k := s.k.set n.toNat v n.isLt }

def withBytes (s : State) (a : Nat) (bs : List Byte) : State := { s with mem := memWriteBytes s.mem a bs }

/-- One step of a launch whose program is the given bytes. -/
def run (s : State) (bs : List Byte) : Host.Outcome State Fault Refusal := step (s.place bs)

def nextOf : Host.Outcome State Fault Refusal → Option State
  | .next t    => some t
  | .fault _   => none
  | .refused _ => none

def faultOf : Host.Outcome State Fault Refusal → Option Fault
  | .next _    => none
  | .fault r   => some r
  | .refused _ => none

theorem completes_of {o : Host.Outcome State Fault Refusal} (h : (nextOf o).isSome = true) : ∃ t, o = .next t := by
  cases o with
  | next t    => exact ⟨t, rfl⟩
  | fault r   => cases h
  | refused r => cases h

theorem faults_of {o : Host.Outcome State Fault Refusal} {r : Fault} (h : faultOf o = some r) : o = .fault r := by
  cases o with
  | next t    => cases h
  | fault q   => cases h; rfl
  | refused q => cases h

/-- The elements of a register and the pc after a completed step. -/
def lanesAfter (d : BitVec 5) (o : Host.Outcome State Fault Refusal) : Option (List Lane × Word) :=
  (nextOf o).map (fun t => ((List.range 16).map (lane (t.zreg d)), t.pc))

/-- Where and how much a completed step read, and the pc after it. -/
def readsAfter (o : Host.Outcome State Fault Refusal) : Option (List (Nat × Nat) × Word) :=
  (nextOf o).map (fun t => (t.reads.map (fun e => (e.addr, e.bytes.length)), t.pc))

/-! ## WellFormed: one ill-formed term for each check -/

theorem test_wf_accepts : (Instr.xorps ⟨[.addrSize, .seg .fs, .rex 5], 0, .mem (.sib 2 1 1 (.d8 0x10))⟩).wellFormed = true := by
  decide

theorem test_wf_repeated_prefix : (Instr.xorps ⟨[.addrSize, .seg .fs, .addrSize], 0, .reg 0⟩).wellFormed = false := by decide

theorem test_wf_two_segments : (Instr.vxorpsVex128C5 ⟨[.seg .fs, .seg .gs], false, 0, 0, .reg 0⟩).wellFormed = false := by
  decide

theorem test_wf_mandatory_prefix : [Prefix.opSize, Prefix.repne, Prefix.rep].all
    (fun p => (Instr.xorps ⟨[p], 0, .reg 0⟩).wellFormed == false) = true := by decide

theorem test_wf_base_is_sib : (Instr.xorps ⟨[], 0, .mem (.base 4 .absent)⟩).wellFormed = false := by decide

theorem test_wf_base_is_rip : (Instr.xorps ⟨[], 0, .mem (.base 5 .absent)⟩).wellFormed = false := by decide

theorem test_wf_sib_base_absent : (Instr.xorps ⟨[], 0, .mem (.sib 0 0 5 .absent)⟩).wellFormed = false := by decide

theorem test_wf_too_long : (Instr.xorps ⟨List.replicate 13 (.rex 0), 0, .reg 0⟩).wellFormed = false ∧
    (Instr.xorps ⟨List.replicate 12 (.rex 0), 0, .reg 0⟩).wellFormed = true := by decide

/-! ## Decoding: bytes of 95_test_vectors.md section 1.3, one or two per constructor -/

theorem test_decode_xorps : decode [0x0F, 0x57, 0x0C, 0x24] = .ok (.xorps ⟨[], 1, .mem (.sib 0 4 4 .absent)⟩, []) ∧
    decode [0x44, 0x0F, 0x57, 0x3D, 0xF9, 0xFF, 0xFF, 0xFF] = .ok (.xorps ⟨[.rex 4], 7, .mem (.ripRel (-7))⟩, []) := by
  decide +kernel

theorem test_decode_vex128C5 : decode [0xC5, 0xF0, 0x57, 0x58, 0x01] =
    .ok (.vxorpsVex128C5 ⟨[], false, 1, 3, .mem (.base 0 (.d8 1))⟩, []) := by decide +kernel

theorem test_decode_vex128C4 : decode [0xC4, 0xE1, 0xE8, 0x57, 0xCB] =
    .ok (.vxorpsVex128C4 ⟨[], false, false, false, true, 2, 1, .reg 3⟩, []) := by decide +kernel

theorem test_decode_vex256C5 : decode [0xC5, 0xF4, 0x57, 0x44, 0xC8, 0x40] =
    .ok (.vxorpsVex256C5 ⟨[], false, 1, 0, .mem (.sib 3 1 0 (.d8 0x40))⟩, []) := by decide +kernel

theorem test_decode_vex256C4 : decode [0xC4, 0xC1, 0x74, 0x57, 0x00] =
    .ok (.vxorpsVex256C4 ⟨[], false, false, true, false, 1, 0, .mem (.base 0 .absent)⟩, []) := by decide +kernel

theorem test_decode_evex128 : decode [0x62, 0xE1, 0x6C, 0x08, 0x57, 0xC3] =
    .ok (.vxorpsEvex128 ⟨[], false, false, false, true, 2, false, false, false, 0, 0, .reg 3⟩, []) := by decide +kernel

theorem test_decode_evex256 : decode [0x62, 0xF1, 0x6C, 0x38, 0x57, 0x48, 0x20] =
    .ok (.vxorpsEvex256 ⟨[], false, false, false, false, 2, false, false, true, 0, 1, .mem (.base 0 (.d8 0x20))⟩, []) := by
  decide +kernel

theorem test_decode_evex512 : decode [0x62, 0xF1, 0x6C, 0x49, 0x57, 0x88, 0x41, 0, 0, 0] =
    .ok (.vxorpsEvex512 ⟨[], false, false, false, false, 2, false, false, false, 1, 1, .mem (.base 0 (.d32 0x41))⟩, []) := by
  decide +kernel

/-- The table's own match words, fields all zero, decode to their rows. -/
theorem test_table_words :
    [(24, 0x0F5700), (32, 0xC5005700), (40, 0xC401005700), (32, 0xC5045700), (40, 0xC401045700), (48, 0x620104005700),
      (48, 0x620104205700), (48, 0x620104405700)].map (fun r => (decodeTableWord r.1 r.2).map Instr.mnemonic) =
    [some "XORPS", some "VXORPS.VEX128.C5", some "VXORPS.VEX128.C4", some "VXORPS.VEX256.C5", some "VXORPS.VEX256.C4",
      some "VXORPS.EVEX128", some "VXORPS.EVEX256", some "VXORPS.EVEX512"] := by decide +kernel

/-- The same words run as the first instruction of a launch from reset. -/
theorem test_table_words_run :
    [(24, 0x0F5700), (32, 0xC5005700), (40, 0xC401005700), (32, 0xC5045700), (40, 0xC401045700), (48, 0x620104005700),
      (48, 0x620104205700), (48, 0x620104405700)].all
      (fun r => (nextOf (step (State.reset.withFetchWord r.1 r.2))).isSome) = true := by decide +kernel

/-! ## Single steps: the derived vectors -/

/-- Start state of VA1, VB1 and VC1 (register 1 and its upper elements, and the two sources). -/
def vb1 : State :=
  ((launch.writeZmm 1 (all16 0xDEADBEEF)).writeZmm 2 (zof [0x3F800000, 0xBF800000, 0x7FC00000, 0x00000001])).writeZmm 3
    (zof [0x80000000, 0x80000000, 0xFFFFFFFF, 0x00000001])

/-- Start state of VB5. -/
def vb5 : State :=
  ((launch.writeZmm 1 (all16 0xDEADBEEF)).writeZmm 2 (zof (List.replicate 8 0xFFFFFFFF))).writeZmm 3
    (zof [0, 0x11111111, 0x22222222, 0x33333333, 0x44444444, 0x55555555, 0x66666666, 0x77777777])

/-- Bytes 00, 01, ..., 0F. -/
def count16 : List Byte := (List.range 16).map (BitVec.ofNat 8)

/-- VA1: bits above 127 keep their value. -/
theorem test_xorps_reg :
    lanesAfter 1 (run ((launch.writeZmm 1 (zof ([0x3F800000, 0xBF800000, 0x7FC00000, 1] ++ List.replicate 12 0xDEADBEEF))).writeZmm
      2 (zof [0x80000000, 0x80000000, 0xFFFFFFFF, 1])) [0x0F, 0x57, 0xCA]) =
    some ([0xBF800000, 0x3F800000, 0x803FFFFF, 0] ++ List.replicate 12 0xDEADBEEF, 0x1003) := by decide +kernel

/-- VA5: a 16-byte little-endian read at 4000h. -/
theorem test_xorps_mem :
    lanesAfter 3 (run (withBytes (withX launch 0 0x4000) 0x4000 count16) [0x0F, 0x57, 0x18]) =
      some ([0x03020100, 0x07060504, 0x0B0A0908, 0x0F0E0D0C] ++ List.replicate 12 0, 0x1003) ∧
    readsAfter (run (withBytes (withX launch 0 0x4000) 0x4000 count16) [0x0F, 0x57, 0x18]) =
      some ([(0x4000, 16)], 0x1003) := by decide +kernel

/-- VB1: bits above 127 become zero. -/
theorem test_vex128C5_reg :
    lanesAfter 1 (run vb1 [0xC5, 0xE8, 0x57, 0xCB]) =
      some ([0xBF800000, 0x3F800000, 0x803FFFFF, 0] ++ List.replicate 12 0, 0x1004) := by decide +kernel

/-- VB7: an unaligned read at 3001h, disp8 not scaled. -/
theorem test_vex128C5_mem :
    lanesAfter 3 (run (withBytes (withX (launch.writeZmm 1 (zof [0xF0000000, 0xE0000000, 0xD0000000, 0xC0000000])) 0 0x3000)
      0x3000 ((List.range 32).map (fun m => BitVec.ofNat 8 (0x10 + m)))) [0xC5, 0xF0, 0x57, 0x58, 0x01]) =
    some ([0xE4131211, 0xF8171615, 0xCC1B1A19, 0xE01F1E1D] ++ List.replicate 12 0, 0x1005) := by decide +kernel

/-- VB3: the three-byte spelling with W = 1. -/
theorem test_vex128C4_reg :
    lanesAfter 1 (run vb1 [0xC4, 0xE1, 0xE8, 0x57, 0xCB]) =
      some ([0xBF800000, 0x3F800000, 0x803FFFFF, 0] ++ List.replicate 12 0, 0x1005) := by decide +kernel

/-- VB5: eight elements, zero above. -/
theorem test_vex256C5_reg :
    lanesAfter 1 (run vb5 [0xC5, 0xEC, 0x57, 0xCB]) =
      some ([0xFFFFFFFF, 0xEEEEEEEE, 0xDDDDDDDD, 0xCCCCCCCC, 0xBBBBBBBB, 0xAAAAAAAA, 0x99999999, 0x88888888] ++
        List.replicate 8 0, 0x1004) := by decide +kernel

/-- VB9: base + index*8 + an unscaled disp8. -/
theorem test_vex256C5_address :
    readsAfter (run (withX (withX launch 0 0x9000) 1 3) [0xC5, 0xF4, 0x57, 0x44, 0xC8, 0x40]) =
      some ([(0x9058, 32)], 0x1006) := by decide +kernel

/-- VB6: registers 8, 15 and 9 by R, vvvv and B. -/
theorem test_vex256C4_reg :
    lanesAfter 8 (run ((launch.writeZmm 15 (zof (List.replicate 8 0x12345678))).writeZmm 9 (zof (List.replicate 8 0xFFFF0000)))
      [0xC4, 0x41, 0x04, 0x57, 0xC1]) = some (List.replicate 8 0xEDCB5678 ++ List.replicate 8 0, 0x1005) := by decide +kernel

/-- VB8: base R8. -/
theorem test_vex256C4_address :
    readsAfter (run (withX launch 8 0x8000) [0xC4, 0xC1, 0x74, 0x57, 0x00]) = some ([(0x8000, 32)], 0x1005) := by
  decide +kernel

/-- VC2: merging-masking, zero above VL. -/
theorem test_evex128_merging :
    lanesAfter 1 (run (withK (vb1.writeZmm 1 (zof ([0xAAAAAAAA, 0xBBBBBBBB, 0xCCCCCCCC, 0xDDDDDDDD] ++
      List.replicate 12 0xDEADBEEF))) 1 0x0005) [0x62, 0xF1, 0x6C, 0x09, 0x57, 0xCB]) =
    some ([0xBF800000, 0xBBBBBBBB, 0x803FFFFF, 0xDDDDDDDD] ++ List.replicate 12 0, 0x1006) := by decide +kernel

/-- VC24: registers 20 and 21, zeroing-masking, disp8 scaled by 16. -/
theorem test_evex128_mem :
    lanesAfter 20 (run (withBytes (withK (withX (withX (launch.writeZmm 21 (zof (List.replicate 4 0xFFFFFFFF))) 8 0xD000) 9 2)
      5 0x000A) 0xD800 count16) [0x62, 0x81, 0x54, 0x85, 0x57, 0x64, 0xC8, 0x7F]) =
    some ([0, 0xF8F9FAFB, 0, 0xF0F1F2F3] ++ List.replicate 12 0, 0x1008) := by decide +kernel

/-- VC5: zeroing-masking with mask 00F0h. -/
theorem test_evex256_zeroing :
    lanesAfter 1 (run (withK vb5 2 0x00F0) [0x62, 0xF1, 0x6C, 0xAA, 0x57, 0xCB]) =
      some ([0, 0, 0, 0, 0xBBBBBBBB, 0xAAAAAAAA, 0x99999999, 0x88888888] ++ List.replicate 8 0, 0x1006) := by decide +kernel

/-- VC21: a broadcast reads 4 bytes, disp8 scaled by 4. -/
theorem test_evex256_broadcast_address :
    readsAfter (run (withX launch 0 0xB000) [0x62, 0xF1, 0x6C, 0x38, 0x57, 0x48, 0x20]) = some ([(0xB080, 4)], 0x1007) := by
  decide +kernel

/-- VC13: registers 17, 9 and 26, mask 8001h. -/
theorem test_evex512_merging :
    lanesAfter 17 (run (withK ((launch.writeZmm 9 (all16 0x55555555)).writeZmm 26 (all16 0xFFFFFFFF)) 3 0x8001)
      [0x62, 0x81, 0x34, 0x4B, 0x57, 0xCA]) =
    some ([0xAAAAAAAA] ++ List.replicate 14 0 ++ [0xAAAAAAAA], 0x1006) := by decide +kernel

/-- VC15: one 4-byte value is the second source of every element. -/
theorem test_evex512_broadcast :
    lanesAfter 1 (run (withBytes (withX (withK ((launch.writeZmm 2 (all16 0x3F800000)).writeZmm 1 (all16 0x11111111)) 1 0xFF00)
      0 0xA000) 0xA000 [0, 0, 0, 0x80]) [0x62, 0xF1, 0x6C, 0x59, 0x57, 0x08]) =
    some (List.replicate 8 0x11111111 ++ List.replicate 8 0xBF800000, 0x1006) := by decide +kernel

/-! ## Witnesses: a concrete state and operands that meet the hypotheses of each statement

The name of a witness is `witness_` and the statement's name, with a number where the clauses have one witness each. -/

/-- An EVEX instruction on registers 1 (destination) and 2 (first source). -/
def ev (z bc : Bool) (aaa : BitVec 3) (rm : RM) : Evex := ⟨[], false, false, false, false, 2, false, z, bc, aaa, 1, rm⟩

/-- The eight constructors with register 1 as destination, 2 as first source (but for form 1) and the given r/m. -/
def eight (rm : RM) : List Instr :=
  [.xorps ⟨[], 1, rm⟩, .vxorpsVex128C5 ⟨[], false, 2, 1, rm⟩, .vxorpsVex128C4 ⟨[], false, false, false, false, 2, 1, rm⟩,
    .vxorpsVex256C5 ⟨[], false, 2, 1, rm⟩, .vxorpsVex256C4 ⟨[], false, false, false, false, 2, 1, rm⟩,
    .vxorpsEvex128 (ev true false 1 rm), .vxorpsEvex256 (ev false false 1 rm), .vxorpsEvex512 (ev false false 0 rm)]

/-- `[rax]`, and the operand it forms. -/
def rax : RM := .mem (.base 0 .absent)
def raxRef : MemRef := ⟨.gpr 0, none, 0⟩

/-- A launch with RAX = 4000h. -/
def at4000 : State := withX launch 0 0x4000

theorem runnable_of {s : State} {i : Instr}
    (h : (s.ready i.form && !illegalOf i && s.nextPcOk i.len) = true) : Runnable s i := by
  simp only [Bool.and_eq_true, Bool.not_eq_true'] at h
  exact ⟨h.1.1, h.1.2, h.2⟩

theorem clear_of {s : State} {i : Instr} {m : MemRef}
    (h : (canonicalRange s.cfg.va.bits (s.readAddr i m) (readSize i) && (i.form != .sse || s.readAddr i m % 16 == 0) &&
      !s.acFault i.form (s.readAddr i m) (readSize i) &&
      (s.translate (s.readAddr i m) (readSize i) .read).isNone) = true) : OperandClear s i m := by
  simp only [Bool.and_eq_true, Bool.or_eq_true, bne_iff_ne, beq_iff_eq, Bool.not_eq_true', Option.isNone_iff_eq_none] at h
  exact ⟨h.1.1.1, fun hf => h.1.1.2.resolve_left (fun hn => hn hf), h.1.2, h.2⟩

theorem witness_DecodeInvertsEncode : ((eight (.reg 3)).all Instr.wellFormed && (eight rax).all Instr.wellFormed &&
    (Instr.xorps ⟨List.replicate 12 (.rex 0), 0, .reg 0⟩).wellFormed) = true := by decide

theorem witness_EncodeInvertsDecode :
    decode [0x62, 0x01, 0x0C, 0x40, 0x57, 0xFD, 0x90] =
      .ok (.vxorpsEvex512 ⟨[], true, true, true, true, 14, true, false, false, 0, 7, .reg 5⟩, [0x90]) := by decide +kernel

theorem witness_ExactlyItsRowMatches : (Instr.vxorpsVex256C4 ⟨[], true, false, true, false, 15, 0, .reg 1⟩).wellFormed = true ∧
    ⟨"VXORPS.VEX256.C4", [0xC4, 0x01, 0x04, 0x57, 0x00], [0xFF, 0x1F, 0x07, 0xFF, 0x00]⟩ ∈ opcodeRows := by decide

theorem witness_DecodedLengthBounds :
    decode [0x0F, 0x57, 0xC0] = .ok (.xorps ⟨[], 0, .reg 0⟩, []) ∧
    decode (List.replicate 12 0x40 ++ [0x0F, 0x57, 0xC0]) = .ok (.xorps ⟨List.replicate 12 (.rex 0), 0, .reg 0⟩, []) := by
  decide +kernel

theorem witness_OperandNumbersAssembled_1 : (⟨[.lock, .rex 15], 7, .reg 7⟩ : Legacy).pre = [.lock] ++ [.rex 15] ∧
    (⟨[.lock, .rex 15], 7, .reg 7⟩ : Legacy).rm = .reg 7 := ⟨rfl, rfl⟩

theorem witness_OperandNumbersAssembled_2 :
    ∀ (ps : List Prefix) (w : BitVec 4), (⟨[.rex 15, .addrSize], 7, .reg 7⟩ : Legacy).pre ≠ ps ++ [.rex w] := by
  intro ps w h
  have hl := congrArg List.getLast? h
  simp at hl

/-- Both kinds of r/m: zmm31, and an SIB byte whose index is R12 (X = 1, index = 100b) and whose base is R13. -/
theorem witness_OperandNumbersAssembled_3 :
    (evexOperands .evex512 ⟨[], true, true, true, true, 15, true, false, false, 0, 7, .reg 7⟩).src2 = .reg 31 ∧
      (vex3Operands ⟨[], false, true, true, false, 2, 1, .mem (.sib 3 4 5 (.d8 0))⟩).src2 = .mem ⟨.gpr 13, some (12, 3), 0⟩ ∧
      (vex3Operands ⟨[], false, false, true, false, 2, 1, .mem (.sib 3 4 5 (.d8 0))⟩).src2 = .mem ⟨.gpr 13, none, 0⟩ := by decide

theorem witness_NamedRegistersExist_1 :
    let c : Config := { Config.standard with maxvl := .w128, features := ⟨true, false, false, false, false⟩ }
    c.valid = true ∧ admits c.features (Instr.xorps ⟨[.rex 15], 7, .reg 7⟩).form = true ∧
      (operandsOf (.xorps ⟨[.rex 15], 7, .reg 7⟩)).src2 = .reg 15 := by decide

theorem witness_NamedRegistersExist_2 :
    Config.standard.valid = true ∧ admits Config.standard.features .evex512 = true ∧
      (operandsOf (.vxorpsEvex512 ⟨[], true, true, true, true, 15, true, false, false, 0, 7, .reg 7⟩)).src2 = .reg 31 := by
  decide

theorem witness_OtherInstructionsRefused_1 :
    (RM.reg 3).wellFormed = true ∧ Prefix.ofByte 0x66 = some .opSize ∧ prefixesWellFormed ([.seg .fs] ++ .opSize :: [.rex 4]) = true ∧
      prefixesWellFormed [.addrSize, .seg .gs] = true ∧ (∀ p ∈ [Prefix.addrSize, .seg .gs], p = .addrSize ∨ ∃ sg, p = .seg sg) ∧
      (0xE9 : Byte).extractLsb' 0 2 ≠ 0 ∧ (0xE2 : Byte).extractLsb' 0 5 ≠ 1 ∧
      (0xF1 : Byte).getLsbD 3 = false ∧ (0xED : Byte).getLsbD 2 = true ∧ (0xED : Byte).extractLsb' 0 2 ≠ 0 ∧
      (0xF2 : Byte).getLsbD 3 = false ∧ (0xF2 : Byte).extractLsb' 0 3 ≠ 1 :=
  ⟨rfl, rfl, by decide, by decide, by simp, by decide⟩

/-- The step's premises, for the bytes of VXORPD (pp = 01b) behind a 65 prefix. -/
theorem witness_OtherInstructionsRefused_2 :
    let bs : List Byte := [.seg .gs].map Prefix.toByte ++ 0xC5 :: 0xE9 :: 0x57 :: (RM.reg 3).bytes 1
    let s := launch.place bs
    s.fault = none ∧ s.mode = .mode64 ∧ bs.length ≤ maxLen ∧ s.fetches bs := by
  unfold State.fetches State.fetchable
  decide +kernel

theorem witness_EvexReservedBitsRaiseInvalidOpcode_1 :
    prefixesWellFormed [.lock, .seg .ss] = true ∧
    (RM.reg 3).wellFormed = true ∧ (0xF1 : Byte).extractLsb' 0 3 = 1 ∧ (0xF9 : Byte).extractLsb' 0 3 = 1 ∧
      (0xF9 : Byte).getLsbD 3 = true ∧ (0x68 : Byte).extractLsb' 0 2 = 0 ∧ (0x68 : Byte).getLsbD 2 = false ∧
      (0xEC : Byte).extractLsb' 0 2 = 0 ∧ (0xEC : Byte).getLsbD 7 = true ∧ (0x68 : Byte).extractLsb' 5 2 = 3 := by decide

/-- The step's premises, for W = 1. -/
theorem witness_EvexReservedBitsRaiseInvalidOpcode_2 :
    let bs : List Byte := 0x62 :: 0xF1 :: 0xEC :: 0x48 :: 0x57 :: (RM.reg 3).bytes 1
    let s := launch.place bs
    s.fault = none ∧ s.mode = .mode64 ∧ bs.length ≤ maxLen ∧ s.fetches bs := by
  unfold State.fetches State.fetchable
  decide +kernel

/-- Base + displacement past 2^64 with N = 64 and disp8 = 1, and with a 67 prefix (VA16) (first clause). -/
theorem witness_EffectiveAddressIsIntegerSum_1 :
    let o := operandsOf (.vxorpsEvex512 (ev false false 0 rax))
    (withX launch 0 0xFFFFFFFFFFFFFFF0).ea o (memRef false false 64 (.base 0 (.d8 1))) = 0x30 ∧
      (withX launch 0 0xFFFFFFFF00008000).ea { o with addr32 := true } (memRef false false 64 (.base 0 .absent)) = 0x8000 := by
  decide +kernel

/-- VA14, RIP-relative with a negative displacement, and VC23, base RBP with index R14 and disp8 = -1 scaled by 64; no index and
no base. -/
theorem witness_EffectiveAddressIsIntegerSum_2 :
    ({ launch with pc := 0x100F } : State).ea (operandsOf (.xorps ⟨[.rex 4], 7, .mem (.ripRel (-7))⟩))
        (memRef false false 1 (.ripRel (-7))) = 0x1010 ∧
      (withX (withX launch 5 0xC000) 14 0x100).ea (operandsOf (.vxorpsEvex512 (ev false false 0 rax)))
        (memRef true false 64 (.sib 1 6 5 (.d8 0xFF))) = 0xC1C0 ∧
      launch.ea (operandsOf (.xorps ⟨[], 0, rax⟩)) (memRef false false 1 (.sibAbs 3 4 (-1))) = 0xFFFFFFFFFFFFFFFF := by
  decide +kernel

theorem witness_Disp8ScaleByTuple : (ev false true 0 rax).rm = .mem (.base 0 .absent) := rfl

theorem witness_LinearAddressAddsSegmentBase :
    let i (p : List Prefix) : Instr := .xorps ⟨p, 1, rax⟩
    let o (p : List Prefix) := operandsOf (i p)
    (i [.seg .fs]).wellFormed = true ∧ .seg .fs ∈ prefixesOf (i [.seg .fs]) ∧ (o [.seg .fs]).override = some .fs ∧
      (i [.addrSize, .seg .gs]).wellFormed = true ∧ .seg .gs ∈ prefixesOf (i [.addrSize, .seg .gs]) ∧
      (o [.addrSize, .seg .gs]).override = some .gs ∧ (o [.addrSize, .seg .gs]).addr32 = true ∧
      (i [.seg .ss]).wellFormed = true ∧ .seg .fs ∉ prefixesOf (i [.seg .ss]) ∧ .seg .gs ∉ prefixesOf (i [.seg .ss]) ∧
      (o [.seg .ss]).override ≠ some .fs ∧ (o [.seg .ss]).override ≠ some .gs := by decide

theorem witness_StepRunsDecodedInstruction :
    let s := launch.place [0x0F, 0x57, 0xCA]
    let i : Instr := .xorps ⟨[], 1, .reg 2⟩
    i.wellFormed = true ∧ s.fault = none ∧ s.mode = .mode64 ∧
      ∀ j < i.len, inRange (s.pc.toNat + j) s.code.base s.code.size = true ∧
        canonical s.cfg.va.bits (s.pc.toNat + j) = true ∧ s.translate (s.pc.toNat + j) 1 .fetch = none ∧
        (encode i)[j]? = some (memRead s.mem (s.pc.toNat + j)) := by decide +kernel

/-- The first byte that is not canonical is the instruction's first, and its last: the lower half ends before it. -/
theorem witness_FetchFaultsComeFirst_1 :
    let i : Instr := .xorps ⟨[], 1, .reg 2⟩
    let s : State := ({ launch with pc := 0x0000800000000000 } : State).place (encode i)
    let u : State := ({ launch with pc := 0x00007FFFFFFFFFFE } : State).place (encode i)
    i.fieldsWellFormed = true ∧ s.fault = none ∧ s.mode = .mode64 ∧ s.fetches ((encode i).take 0) ∧
      inRange (s.pc.toNat + 0) s.code.base s.code.size = true ∧ nonCanonical s.cfg.va.bits (s.pc.toNat + 0) ∧
      u.fault = none ∧ u.mode = .mode64 ∧ u.fetches ((encode i).take 2) ∧
      inRange (u.pc.toNat + 2) u.code.base u.code.size = true ∧ nonCanonical u.cfg.va.bits (u.pc.toNat + 2) ∧ 2 < i.len := by
  unfold nonCanonical State.fetches State.fetchable
  decide +kernel

/-- The instruction's second byte lies in a page that faults, and in a segment that does. -/
theorem witness_FetchFaultsComeFirst_2 :
    let i : Instr := .xorps ⟨[], 1, .reg 2⟩
    let x (w : XlatFault) : XlatEntry := ⟨0x1001, 0x1000, .fetch, w⟩
    let s (w : XlatFault) : State := { launch.place (encode i) with xlat := [x w] }
    let w : XlatFault := .page true true false 0
    (s w).fault = none ∧ (s w).mode = .mode64 ∧ (s w).fetches ((encode i).take 1) ∧ (s .segment).fetches ((encode i).take 1) ∧
      inRange ((s w).pc.toNat + 1) (s w).code.base (s w).code.size = true ∧
      canonical (s w).cfg.va.bits ((s w).pc.toNat + 1) = true ∧
      (s w).translate ((s w).pc.toNat + 1) 1 .fetch = some (x w) ∧
      (s .segment).translate ((s w).pc.toNat + 1) 1 .fetch = some (x .segment) := by
  unfold State.fetches State.fetchable
  decide +kernel

/-- Sixteen bytes, the first thirteen of them REX. -/
theorem witness_FetchFaultsComeFirst_3 :
    let i : Instr := .xorps ⟨List.replicate 13 (.rex 15), 1, .reg 2⟩
    let s := launch.place (encode i)
    i.fieldsWellFormed = true ∧ s.fault = none ∧ s.mode = .mode64 ∧ 15 < i.len ∧ s.fetches ((encode i).take 15) := by
  unfold State.fetches State.fetchable
  decide +kernel

theorem witness_OtherModesAndEndOfRunStop :
    State.reset.fault = none ∧ State.reset.mode ≠ .mode64 ∧ launch.mode = .mode64 ∧
      ({ launch with code := ⟨0xFFD, 3⟩ } : State).final := ⟨rfl, by decide, rfl, by decide, rfl⟩

/-- The hypotheses, and both sides of the equivalence true and false. -/
theorem witness_InvalidOpcodeFormOne :
    launch.cfg.valid = true ∧ launch.mode = .mode64 ∧
      faultOf (exec (.xorps ⟨[.lock], 1, rax⟩) launch) = some (.exception .ud 0x1000) ∧
      (nextOf (exec (.xorps ⟨[], 1, .reg 2⟩) launch)).isSome = true := by decide +kernel

/-- Both modes of the hypotheses, and both sides of the equivalence true and false. -/
theorem witness_InvalidOpcodeVex :
    isVex (.vxorpsVex128C5 ⟨[], false, 2, 1, .reg 3⟩) = true ∧ launch.cfg.valid = true ∧ launch.mode = .mode64 ∧
      State.reset.mode = .real ∧
      faultOf (exec (.vxorpsVex128C5 ⟨[.rex 0], false, 2, 1, .reg 3⟩) launch) = some (.exception .ud 0x1000) ∧
      (nextOf (exec (.vxorpsVex128C5 ⟨[.seg .ss], false, 2, 1, .reg 3⟩) launch)).isSome = true := by decide +kernel

/-- Both modes of the hypotheses; VC26 raises and z = 1 with a writemask does not. -/
theorem witness_InvalidOpcodeEvex :
    evexOf (.vxorpsEvex512 (ev true false 0 (.reg 3))) = some (ev true false 0 (.reg 3)) ∧ launch.cfg.valid = true ∧
      launch.mode = .mode64 ∧ ({ launch with mode := .virtual8086 } : State).mode = .virtual8086 ∧
      faultOf (exec (.vxorpsEvex512 (ev true false 0 (.reg 3))) launch) = some (.exception .ud 0x1000) ∧
      (nextOf (exec (.vxorpsEvex512 (ev true false 1 (.reg 3))) launch)).isSome = true := by decide +kernel

theorem witness_BroadcastBitWithRegisterRaises :
    evexOf (.vxorpsEvex512 (ev false true 0 (.reg 3))) = some (ev false true 0 (.reg 3)) ∧ (ev false true 0 (.reg 3)).bc = true ∧
      (ev false true 0 (.reg 3)).rm = .reg 3 ∧ launch.cfg.valid = true ∧ launch.mode = .mode64 := by decide

/-- CR0.TS = 1 with no #UD condition. -/
theorem witness_DeviceNotAvailableExactly :
    let s : State := { launch with cr0 := 8 }
    s.cfg.valid = true ∧ s.mode = .mode64 ∧
      (eight (.reg 3)).all (fun i => faultOf (exec i s) == some (.exception .nm 0x1000)) = true := by decide +kernel

theorem witness_OutsideTheModelRefused :
    ({ Config.standard with maxvl := .w256 } : Config).valid = false ∧ Config.standard.valid = true ∧
      ({ launch with mode := .compatibility } : State).mode = .compatibility := by decide

theorem witness_BootMakesFormsReady : State.reset.cfg.valid = true ∧ admits State.reset.cfg.features .evex256 = true := by
  decide

/-- VA18 and VA17: a base of RSP, and of RAX; the last byte of the operand past the lower half. -/
theorem witness_NonCanonicalOperandFaults :
    let i : Instr := .xorps ⟨[], 1, .mem (.sib 0 4 4 .absent)⟩
    let s := withX launch 4 0x0000800000000000
    let m : MemRef := ⟨.gpr 4, none, 0⟩
    s.ready i.form = true ∧ illegalOf i = false ∧ (operandsOf i).src2 = .mem m ∧
      (∃ j < readSize i, nonCanonical s.cfg.va.bits (s.readAddr i m + j)) ∧
      (∃ j < 16, nonCanonical 48 (0x00007FFFFFFFFFF1 + j)) := by
  refine ⟨by decide +kernel, by decide +kernel, by decide +kernel, ⟨0, by decide +kernel, ?_⟩, ⟨15, by decide, ?_⟩⟩ <;>
    · unfold nonCanonical
      decide +kernel

/-- VA6 and VC35: a misaligned operand of form 1, and of form 6. -/
theorem witness_OnlyFormOneFaultsOnAlignment :
    let s := withX launch 0 0xE008
    (eight rax).all (fun i => s.ready i.form && !illegalOf i && (operandsOf i).src2 == .mem raxRef &&
        canonicalRange s.cfg.va.bits (s.readAddr i raxRef) (readSize i) &&
        (s.translate (s.readAddr i raxRef) (readSize i) .read).isNone && s.readAddr i raxRef % 16 != 0) = true := by
  decide +kernel

/-- CR0.AM and EFLAGS.AC set, and a broadcast operand at an address that is not a multiple of 4 (R56's default). -/
theorem witness_AlignmentCheckByParameter :
    let i : Instr := .vxorpsEvex512 (ev false true 0 rax)
    let s : State := { withX launch 0 0xE001 with cr0 := 0x40000, eflags := 0x40002 }
    s.ready i.form = true ∧ illegalOf i = false ∧ (operandsOf i).src2 = .mem raxRef ∧
      canonicalRange s.cfg.va.bits (s.readAddr i raxRef) (readSize i) = true ∧ i.form ≠ .sse ∧
      faultOf (exec i s) = some (.exception .ac 0x1000) := by decide +kernel

/-- VB15: the operand's second page faults. -/
theorem witness_PageFaultOnOperand :
    let i : Instr := .vxorpsVex256C5 ⟨[], false, 2, 1, rax⟩
    let x : XlatEntry := ⟨0x1000, 0x1000, .read, .page false true false 0⟩
    let s : State := { withX launch 0 0xFF0 with xlat := [x] }
    s.ready i.form = true ∧ illegalOf i = false ∧ (operandsOf i).src2 = .mem raxRef ∧
      canonicalRange s.cfg.va.bits (s.readAddr i raxRef) (readSize i) = true ∧
      s.acFault i.form (s.readAddr i raxRef) (readSize i) = false ∧ x ∈ s.xlat ∧
      x.touches (s.readAddr i raxRef) (readSize i) .read = true ∧ x.answer = .page false true false 0 ∧
      faultOf (exec i s) = some (.exception (.pf 4 0x1000) 0x1000) := by decide +kernel

/-- The last byte of the operand is not declared. -/
theorem witness_UndeclaredMemoryRefused :
    let i : Instr := .xorps ⟨[], 1, rax⟩
    let s : State := { at4000 with map := [⟨0x4000, 15, .own⟩] }
    s.ready i.form = true ∧ illegalOf i = false ∧ (operandsOf i).src2 = .mem raxRef ∧ OperandClear s i raxRef ∧
      ∃ j < readSize i, s.regionOf (s.readAddr i raxRef + j) = none :=
  ⟨by decide +kernel, by decide +kernel, by decide +kernel, clear_of (by decide +kernel),
    15, by decide +kernel, by decide +kernel⟩

theorem witness_WholeOperandReadable :
    (operandsOf (.vxorpsEvex512 (ev true false 7 rax))).src2 = .mem raxRef ∧
      ∃ t, exec (.vxorpsEvex512 (ev true false 7 rax)) at4000 = .next t := ⟨by decide, completes_of (by decide +kernel)⟩

theorem witness_XorpsRegisterResult :
    (legacyOperands ⟨[], 1, .reg 2⟩).src2 = .reg 2 ∧ Runnable launch (.xorps ⟨[], 1, .reg 2⟩) :=
  ⟨by decide, runnable_of (by decide +kernel)⟩

theorem witness_XorpsMemoryResult :
    (legacyOperands ⟨[], 1, rax⟩).src2 = .mem raxRef ∧ Runnable at4000 (.xorps ⟨[], 1, rax⟩) ∧
      OperandClear at4000 (.xorps ⟨[], 1, rax⟩) raxRef ∧
      at4000.ownBytes (at4000.readAddr (.xorps ⟨[], 1, rax⟩) raxRef) 16 = true :=
  ⟨by decide, runnable_of (by decide +kernel), clear_of (by decide +kernel), by decide +kernel⟩

/-- All eight constructors with a register second source (statements VexRegisterResult and EvexRegisterResult, and the register
clause of the rest). -/
theorem witness_registerResults :
    (eight (.reg 3)).all (fun i => (operandsOf i).src2 == .reg 3 && launch.ready i.form && !illegalOf i &&
      launch.nextPcOk i.len) = true ∧ (eight (.reg 3)).countP isVex = 4 ∧
      (eight (.reg 3)).countP (fun i => (evexOf i).isSome) = 3 := by decide +kernel

theorem witness_VexRegisterResult :
    isVex (.vxorpsVex256C4 ⟨[], false, false, false, false, 2, 1, .reg 3⟩) = true ∧
      (operandsOf (.vxorpsVex256C4 ⟨[], false, false, false, false, 2, 1, .reg 3⟩)).src2 = .reg 3 ∧
      Runnable launch (.vxorpsVex256C4 ⟨[], false, false, false, false, 2, 1, .reg 3⟩) :=
  ⟨by decide, by decide, runnable_of (by decide +kernel)⟩

theorem witness_VexMemoryResult :
    let i : Instr := .vxorpsVex256C5 ⟨[], false, 2, 1, rax⟩
    isVex i = true ∧ (operandsOf i).src2 = .mem raxRef ∧ Runnable at4000 i ∧ OperandClear at4000 i raxRef ∧
      at4000.ownBytes (at4000.readAddr i raxRef) (4 * i.form.kl) = true :=
  ⟨by decide, by decide, runnable_of (by decide +kernel), clear_of (by decide +kernel), by decide +kernel⟩

/-- Selected and unselected elements exist in one state: mask 0005h at KL = 4. -/
theorem witness_EvexRegisterResult :
    let e := ev false false 1 (.reg 3)
    let s := withK launch 1 5
    evexOf (.vxorpsEvex128 e) = some e ∧ (operandsOf (.vxorpsEvex128 e)).src2 = .reg 3 ∧ Runnable s (.vxorpsEvex128 e) ∧
      selected s e 0 ∧ ¬ selected s e 1 :=
  ⟨by decide, by decide, runnable_of (by decide +kernel), by unfold selected; decide +kernel,
    by unfold selected; decide +kernel⟩

theorem witness_EvexMemoryResult :
    let e := ev true false 1 rax
    evexOf (.vxorpsEvex512 e) = some e ∧ e.bc = false ∧ (operandsOf (.vxorpsEvex512 e)).src2 = .mem raxRef ∧
      Runnable at4000 (.vxorpsEvex512 e) ∧ OperandClear at4000 (.vxorpsEvex512 e) raxRef ∧
      at4000.ownBytes (at4000.readAddr (.vxorpsEvex512 e) raxRef) (4 * (Instr.vxorpsEvex512 e).form.kl) = true :=
  ⟨by decide, by decide, by decide, runnable_of (by decide +kernel), clear_of (by decide +kernel), by decide +kernel⟩

theorem witness_EvexBroadcastResult :
    let e := ev false true 1 rax
    evexOf (.vxorpsEvex256 e) = some e ∧ e.bc = true ∧ (operandsOf (.vxorpsEvex256 e)).src2 = .mem raxRef ∧
      Runnable at4000 (.vxorpsEvex256 e) ∧ OperandClear at4000 (.vxorpsEvex256 e) raxRef ∧
      at4000.ownBytes (at4000.readAddr (.vxorpsEvex256 e) raxRef) 4 = true :=
  ⟨by decide, by decide, by decide, runnable_of (by decide +kernel), clear_of (by decide +kernel), by decide +kernel⟩

/-- Half of the operand in memory of the launch's own, half in shared memory. -/
theorem witness_PlainMemoryOperandCompletes :
    let i : Instr := .vxorpsVex128C5 ⟨[], false, 2, 1, rax⟩
    let s : State := { at4000 with map := [⟨0x4000, 8, .own⟩, ⟨0x4008, 8, .shared⟩] }
    (operandsOf i).src2 = .mem raxRef ∧ Runnable s i ∧ OperandClear s i raxRef ∧
      s.plainBytes (s.readAddr i raxRef) (readSize i) = true ∧ s.regionOf (s.readAddr i raxRef + 7) = some .own ∧
      s.regionOf (s.readAddr i raxRef + 8) = some .shared :=
  ⟨by decide, runnable_of (by decide +kernel), clear_of (by decide +kernel), by decide +kernel, by decide +kernel,
    by decide +kernel⟩

/-- The premises hold for all eight constructors, and for a broadcast operand, in shared memory. -/
theorem witness_PlainMemoryOperandCompletes_2 :
    let s : State := { at4000 with map := [⟨0x4000, 64, .shared⟩] }
    (.vxorpsEvex512 (ev false true 1 rax) :: eight rax).all (fun i => (operandsOf i).src2 == .mem raxRef && s.ready i.form &&
      !illegalOf i && s.nextPcOk i.len && canonicalRange s.cfg.va.bits (s.readAddr i raxRef) (readSize i) &&
      s.readAddr i raxRef % 16 == 0 && !s.acFault i.form (s.readAddr i raxRef) (readSize i) &&
      (s.translate (s.readAddr i raxRef) (readSize i) .read).isNone && s.plainBytes (s.readAddr i raxRef) (readSize i)) = true := by
  decide +kernel

/-- The next pc is the first address above the lower half, and the first past 2^64 - 1; a register and a memory operand. -/
theorem witness_NextPcOutOfRangeRefused :
    let i : Instr := .xorps ⟨[], 1, .reg 2⟩
    let v : Instr := .xorps ⟨[], 1, rax⟩
    let s : State := { at4000 with pc := 0x00007FFFFFFFFFFD }
    let u : State := { launch with pc := 0xFFFFFFFFFFFFFFFD }
    s.ready i.form = true ∧ u.ready i.form = true ∧ illegalOf i = false ∧ illegalOf v = false ∧
      (operandsOf i).src2 = .reg 2 ∧ nonCanonical s.cfg.va.bits (s.pc.toNat + i.len) ∧
      nonCanonical u.cfg.va.bits (u.pc.toNat + i.len) ∧ (operandsOf v).src2 = .mem raxRef ∧ OperandClear s v raxRef ∧
      s.plainBytes (s.readAddr v raxRef) (readSize v) = true ∧ nonCanonical s.cfg.va.bits (s.pc.toNat + v.len) := by
  refine ⟨by decide +kernel, by decide +kernel, by decide +kernel, by decide +kernel, by decide +kernel, ?_, ?_,
    by decide +kernel, clear_of (by decide +kernel), by decide +kernel, ?_⟩ <;>
    · unfold nonCanonical
      decide +kernel

/-- Every constructor completes, with a register and with a memory operand (statements OneReadOfTheFormsSize and
CompletedInstructionFrame). -/
theorem witness_completions :
    (eight (.reg 3)).all (fun i => (nextOf (exec i launch)).isSome) = true ∧
      (eight rax).all (fun i => (nextOf (exec i at4000)).isSome && (operandsOf i).src2 == .mem raxRef) = true := by
  decide +kernel

theorem witness_CompletedInstructionFrame : ∃ t, exec (.xorps ⟨[], 1, .reg 2⟩) launch = .next t :=
  completes_of (by decide +kernel)

/-- VA18, VA6: the two exceptions of an operand of form 1; and a page fault. -/
theorem witness_FaultsArePrecise :
    exec (.xorps ⟨[], 1, .mem (.sib 0 4 4 .absent)⟩) (withX launch 4 0x0000800000000000) =
        .fault (.exception .ss 0x1000) ∧
      exec (.xorps ⟨[], 1, rax⟩) (withX launch 0 0x4008) = .fault (.exception .gp 0x1000) ∧
      exec (.xorps ⟨[], 1, rax⟩) { at4000 with xlat := [⟨0x4008, 8, .read, .page false true false 0⟩] } =
        .fault (.exception (.pf 4 0x4008) 0x1000) :=
  ⟨faults_of (by decide +kernel), faults_of (by decide +kernel), faults_of (by decide +kernel)⟩

/-- VA25: a signalling NaN and an infinity complete. -/
theorem witness_NoSimdFloatingPointException :
    let s := (launch.writeZmm 1 (zof [0x7FA00000, 0x7F800000])).place [0x0F, 0x57, 0xCA]
    s.fault = none ∧ ∃ t, step s = .next t := ⟨rfl, completes_of (by decide +kernel)⟩

theorem witness_StatusRegistersDoNotMatter : (0xFFFBFFFF : BitVec 32).getLsbD 18 = launch.eflags.getLsbD 18 := by decide

/-- Bits 15:4 of k1 and all of k0 differ, bits 3:0 of k1 agree, at KL = 4. -/
theorem witness_UnreadOpmaskBitsDoNotMatter :
    ∀ n : BitVec 3, n ≠ 0 → ∀ j < (Instr.vxorpsEvex128 (ev false false 1 (.reg 3))).form.kl,
      (({ withK launch 1 5 with k := (withK (withK launch 1 0xFFF5) 0 7).k } : State).kreg n).getLsbD j =
        ((withK launch 1 5).kreg n).getLsbD j := by decide +kernel

/-- The EVEX clause: the last element selected. -/
theorem witness_SameSourcesGiveZero_1 :
    (operandsOf (.vxorpsEvex512 (ev false false 1 (.reg 2)))).src2 =
        .reg (operandsOf (.vxorpsEvex512 (ev false false 1 (.reg 2)))).src1 ∧
      selected (withK launch 1 0x8000) (ev false false 1 (.reg 2)) 15 ∧
      ∃ t, exec (.vxorpsEvex512 (ev false false 1 (.reg 2))) (withK launch 1 0x8000) = .next t :=
  ⟨by decide, by unfold selected; decide +kernel, completes_of (by decide +kernel)⟩

/-- The clauses of form 1 and of VEX. -/
theorem witness_SameSourcesGiveZero_2 :
    let i : Instr := .xorps ⟨[], 1, .reg 1⟩
    let v : Instr := .vxorpsVex128C5 ⟨[], false, 2, 1, .reg 2⟩
    i.form = .sse ∧ (operandsOf i).src2 = .reg (operandsOf i).src1 ∧ (∃ t, exec i launch = .next t) ∧
      isVex v = true ∧ (operandsOf v).src2 = .reg (operandsOf v).src1 ∧ ∃ t, exec v launch = .next t :=
  ⟨rfl, by decide, completes_of (by decide +kernel), rfl, by decide, completes_of (by decide +kernel)⟩

theorem witness_ApplyingTwiceRestores :
    let i : Instr := .vxorpsVex128C5 ⟨[], false, 1, 1, .reg 3⟩
    (operandsOf i).src2 = .reg 3 ∧ (operandsOf i).src1 = (operandsOf i).dest ∧ (3 : BitVec 5) ≠ (operandsOf i).dest ∧
      evexOf i = none ∧ (∃ t, exec i launch = .next t) ∧
      ((nextOf (exec i launch)).bind (fun t => nextOf (exec i t))).isSome = true :=
  ⟨by decide, by decide, by decide, by decide, completes_of (by decide +kernel), by decide +kernel⟩

theorem witness_ResetMeetsInvariant :
    Config.standard.valid = true ∧
      ({ Config.standard with maxvl := .w128, features := ⟨true, false, false, false, false⟩, kw := .w16, va := .w57 }
        : Config).valid = true := by decide

theorem witness_StepKeepsInvariant :
    let s := launch.place [0x62, 0xF1, 0x6C, 0x09, 0x57, 0xCB]
    s.Inv ∧ ∃ t, step s = .next t :=
  ⟨⟨by decide +kernel, by decide +kernel, by decide +kernel, by decide +kernel, by decide +kernel, by decide +kernel⟩,
    completes_of (by decide +kernel)⟩

/-- A run of one step. -/
theorem witness_RunChangesVectorsAndPcOnly :
    ∃ t, Host.Core.run core 1 (launch.place [0x0F, 0x57, 0xC0]) = .next t :=
  completes_of (o := Host.Core.run core 1 (launch.place [0x0F, 0x57, 0xC0])) (by decide +kernel)

end Sys2Proof.Tests
end

section
/-! What a completed instruction leaves unchanged (R36): everything but one vector register and the pc, and, under form 1, the
upper part of that register as well. -/

namespace Sys2Proof.Machine

/-- Form 1 writes bits 127:0 of its destination only (R131). -/
theorem getLsbD_combineOf_sse {i : Instr} (hi : i.form = .sse) (s : State) (old a b : VReg) {j : Nat} (hj : 128 ≤ j) :
    (combineOf s i old a b).getLsbD j = old.getLsbD j := by
  cases i with
  | xorps e => simp [combineOf, show ¬ j < 128 by omega]
  | _ => cases hi

theorem exec_next_unchangedBut {i : Instr} {s t : State} (h : exec i s = .next t) :
    UnchangedBut (operandsOf i).dest s t := by
  obtain ⟨-, l, -, rfl⟩ := exec_eq_next.1 h
  exact State.completed_unchanged _ _ _ _

theorem exec_next_pc {i : Instr} {s t : State} (h : exec i s = .next t) : t.pc.toNat = s.pc.toNat + i.len := by
  obtain ⟨hrun, l, -, rfl⟩ := exec_eq_next.1 h
  rw [← operandsOf_len]
  exact State.completed_pc _ _ (by simpa using hrun.nextPc)

/-- A completed form 1 keeps bits 511:128 of its destination (R131). -/
theorem exec_next_zreg_dest_upper {i : Instr} {s t : State} (h : exec i s = .next t) (hi : i.form = .sse) {j : Nat}
    (hj : 128 ≤ j) : (t.zreg (operandsOf i).dest).getLsbD j = (s.zreg (operandsOf i).dest).getLsbD j := by
  obtain ⟨-, l, -, rfl⟩ := exec_eq_next.1 h
  rw [State.completed_zreg, if_pos rfl, getLsbD_combineOf_sse hi _ _ _ _ hj]

/-- Settles O40: the frame, the pc and the upper destination bits, each read off the one state `exec_eq_next` names. -/
theorem completedInstructionFrame : Obligations.CompletedInstructionFrame := fun _ _ _ h =>
  ⟨exec_next_unchangedBut h, exec_next_pc h, fun hi _ hb => exec_next_zreg_dest_upper h hi hb⟩

end Sys2Proof.Machine
end

section
/-! The length bounds of a decoded instruction (R102). -/

namespace Sys2Proof

theorem Instr.three_le_len (i : Instr) : 3 ≤ i.len :=
  match i with
  | .xorps e          => (Laws.EncodedLength.xorps e).2
  | .vxorpsVex128C5 e => (Laws.EncodedLength.vxorpsVex128C5 e).2
  | .vxorpsVex128C4 e => (Laws.EncodedLength.vxorpsVex128C4 e).2
  | .vxorpsVex256C5 e => (Laws.EncodedLength.vxorpsVex256C5 e).2
  | .vxorpsVex256C4 e => (Laws.EncodedLength.vxorpsVex256C4 e).2
  | .vxorpsEvex128 e  => (Laws.EncodedLength.vxorpsEvex128 e).2
  | .vxorpsEvex256 e  => (Laws.EncodedLength.vxorpsEvex256 e).2
  | .vxorpsEvex512 e  => (Laws.EncodedLength.vxorpsEvex512 e).2

/-- The decoder accepts an instruction only behind its length check. -/
theorem len_le_of_decode {bs rest : List Byte} {i : Instr} (h : decode bs = .ok (i, rest)) : i.len ≤ maxLen := by
  unfold decode at h
  split at h
  · cases h
  · split at h
    · cases h
    · split at h
      · cases h
      · split at h
        · rename_i hlen
          cases h
          exact hlen
        · cases h

end Sys2Proof
end

section
/-! What a run of any number of steps keeps (R36, R52): one induction over the steps, used once for the frame and once
for the pc. -/

namespace Sys2Proof.Machine

/-- What holds of a run of no steps and is kept when a step is put in front holds of every run that answers a next state,
on any machine. -/
theorem run_next_induction {M : Host.Core} {P : Nat → M.State → M.State → Prop} (zero : ∀ s, P 0 s s)
    (succ : ∀ n s t u, M.step s = .next t → P n t u → P (n + 1) s u) {n : Nat} {s u : M.State}
    (h : M.run n s = .next u) : P n s u := by
  induction n generalizing s with
  | zero =>
    cases h
    exact zero _
  | succ n ih =>
    unfold Host.Core.run at h
    split at h
    · rename_i t ht
      exact succ n s t u ht (ih h)
    · cases h
    · cases h

/-- `t` is `s` but for the vector registers, the pc, the event history and the counter of free values. -/
def State.SameButVectorsAndPc (s t : State) : Prop :=
  ∃ zmm pc reads draws, t = { s with zmm := zmm, pc := pc, reads := reads, draws := draws }

theorem State.SameButVectorsAndPc.refl (s : State) : s.SameButVectorsAndPc s := ⟨_, _, _, _, rfl⟩

theorem State.SameButVectorsAndPc.trans {s t u : State} (hst : s.SameButVectorsAndPc t) (htu : t.SameButVectorsAndPc u) :
    s.SameButVectorsAndPc u := by
  obtain ⟨_, _, _, _, rfl⟩ := hst
  obtain ⟨_, _, _, _, rfl⟩ := htu
  exact ⟨_, _, _, _, rfl⟩

/-- No completed instruction stores, and none writes a control register or an opmask (R36, R52). -/
theorem exec_next_sameButVectorsAndPc {i : Instr} {s t : State} (h : exec i s = .next t) : s.SameButVectorsAndPc t := by
  obtain ⟨-, l, -, rfl⟩ := exec_eq_next.1 h
  exact ⟨_, _, _, _, rfl⟩

theorem step_next_sameButVectorsAndPc {s t : State} (h : step s = .next t) : s.SameButVectorsAndPc t := by
  obtain ⟨-, -, -, i, rest, -, hexec⟩ := step_eq_next h
  exact exec_next_sameButVectorsAndPc hexec

/-- The pc advances by the length of the decoded instruction (R27, R102). -/
theorem step_next_pc_bounds {s t : State} (h : step s = .next t) :
    s.pc.toNat + 3 ≤ t.pc.toNat ∧ t.pc.toNat ≤ s.pc.toNat + 15 := by
  obtain ⟨-, -, -, i, rest, hdecode, hexec⟩ := step_eq_next h
  have hpc := exec_next_pc hexec
  have hmin := i.three_le_len
  have hmax : i.len ≤ 15 := len_le_of_decode hdecode
  omega

theorem run_next_sameButVectorsAndPc {n : Nat} {s t : State} (h : Host.Core.run core n s = .next t) :
    s.SameButVectorsAndPc t :=
  run_next_induction (M := core) (P := fun _ s t => s.SameButVectorsAndPc t) State.SameButVectorsAndPc.refl
    (fun _ _ _ _ hstep hrun => (step_next_sameButVectorsAndPc hstep).trans hrun) h

theorem run_next_pc_bounds {n : Nat} {s t : State} (h : Host.Core.run core n s = .next t) :
    s.pc.toNat + 3 * n ≤ t.pc.toNat ∧ t.pc.toNat ≤ s.pc.toNat + 15 * n := by
  refine run_next_induction (M := core)
    (P := fun n s t => s.pc.toNat + 3 * n ≤ t.pc.toNat ∧ t.pc.toNat ≤ s.pc.toNat + 15 * n)
    (fun s => by simp) (fun n s t u hstep hrun => ?_) h
  have hpc := step_next_pc_bounds hstep
  omega

/-- Settles O50: the frame and the pc bounds of a run, each by induction over its steps. -/
theorem runChangesVectorsAndPcOnly : Obligations.RunChangesVectorsAndPcOnly := by
  intro n s t h
  obtain ⟨hlow, hhigh⟩ := run_next_pc_bounds h
  obtain ⟨_, _, _, _, rfl⟩ := run_next_sameButVectorsAndPc h
  exact ⟨rfl, rfl, rfl, rfl, rfl, rfl, rfl, rfl, rfl, rfl, rfl, rfl, rfl, rfl, rfl, rfl, rfl, rfl, hlow, hhigh⟩

end Sys2Proof.Machine
end

section
/-! What a completed instruction adds to the history of reads (R50, R51). -/

namespace Sys2Proof.Machine

theorem exec_next_reads_of_reg {i : Instr} {s t : State} (h : exec i s = .next t) {n : BitVec 5}
    (hn : (operandsOf i).src2 = .reg n) : t.reads = s.reads := by
  obtain ⟨-, l, hl, rfl⟩ := exec_eq_next.1 h
  rw [State.loadSrc2_reg _ _ _ _ hn] at hl
  cases hl
  simp [State.completed]

/-- A memory second source is read once, in as many bytes as the operand has (R50). -/
theorem exec_next_reads_of_mem {i : Instr} {s t : State} (h : exec i s = .next t) {m : MemRef}
    (hm : (operandsOf i).src2 = .mem m) :
    ∃ bs, t.reads = s.reads ++ [⟨s.readAddr i m, bs⟩] ∧ bs.length = readSize i := by
  obtain ⟨-, l, hl, rfl⟩ := exec_eq_next.1 h
  obtain ⟨-, bs, d, hread, rfl⟩ := (State.loadSrc2_mem_ok _ _ _ _ hm _).1 hl
  exact ⟨bs, rfl, s.readBytes_length hread⟩

/-- Settles O39: the history after a register and after a memory operand, and the size of the operand form by form. -/
theorem oneReadOfTheFormsSize : Obligations.OneReadOfTheFormsSize := by
  intro i s t h
  refine ⟨fun n hn => exec_next_reads_of_reg h hn, fun m hm => ?_⟩
  obtain ⟨bs, hreads, hlen⟩ := exec_next_reads_of_mem h hm
  refine ⟨bs, hreads, hlen.trans ?_⟩
  unfold readSize operandSize
  cases i.form <;> rfl

end Sys2Proof.Machine
end

section
/-! #UD from an instruction's own fields (R97, R157, R173 to R175). -/

namespace Sys2Proof.Machine

theorem illegalOf_evex {i : Instr} {e : Evex} (h : evexOf i = some e) : illegalOf i = evexIllegal e := by
  cases i <;> cases h <;> rfl

/-- EVEX.b with a register second source is one of R97's #UD conditions (R157). -/
theorem evexIllegal_of_broadcast_reg {e : Evex} {n : BitVec 3} (hb : e.bc = true) (hr : e.rm = .reg n) :
    evexIllegal e = true := by
  simp [evexIllegal, hb, hr]

/-- In 64-bit mode a #UD condition of the instruction itself is raised before the other checks and any read (R181 step 2). -/
theorem exec_ud_of_illegal {i : Instr} {s : State} (hi : illegalOf i = true) (hv : s.cfg.valid = true)
    (hm : s.mode = .mode64) : exec i s = .fault (.exception .ud s.pc) := by
  have hgate : s.gate i.form (illegalOf i) = some (s.raise .ud) := by simp [State.gate_mode64 _ _ hv hm, hi]
  rw [exec_eq_runForm, State.runForm_eq_fault]
  exact .inl hgate

/-- Settles O20: the condition makes the instruction illegal (R157), and an illegal instruction is #UD. -/
theorem broadcastBitWithRegisterRaises : Obligations.BroadcastBitWithRegisterRaises :=
  fun _ _ _ _ he hb hr hv hm =>
    exec_ud_of_illegal ((illegalOf_evex he).trans (evexIllegal_of_broadcast_reg hb hr)) hv hm

end Sys2Proof.Machine
end

section
/-! Which exceptions an instruction can raise, by where they come from: the checks (R173 to R176), the memory operand (R177 to
R180) and the translation oracle (R59). -/

namespace Sys2Proof.Machine

/-- The translation oracle's fault is the one of the segment or a page fault (R59). -/
theorem XlatEntry.exc_eq (e : XlatEntry) (a : Nat) (x : Exc) : e.exc a x = x ∨ ∃ code addr, e.exc a x = .pf code addr := by
  unfold XlatEntry.exc
  split
  · exact .inr ⟨_, _, rfl⟩
  · exact .inl rfl

theorem segExc_eq (g : Seg) : segExc g = .ss ∨ segExc g = .gp := by
  unfold segExc
  split
  · exact .inl rfl
  · exact .inr rfl

/-- A memory operand raises #SS, #GP, #AC or #PF, and nothing else (R181 steps 4 to 7). -/
theorem State.operandFault_eq_some {s : State} {f : Form} {g : Seg} {a n : Nat} {x : Exc}
    (h : s.operandFault f g a n = some x) : x = .ss ∨ x = .gp ∨ x = .ac ∨ ∃ code addr, x = .pf code addr := by
  have hseg : segExc g = .ss ∨ segExc g = .gp := segExc_eq g
  unfold State.operandFault at h
  split at h
  · cases h
    tauto
  · split at h
    · cases h
      tauto
    · split at h
      · cases h
        tauto
      · split at h
        · rename_i e _
          cases h
          obtain he | he := e.exc_eq a (segExc g)
          · rw [he]
            tauto
          · tauto
        · cases h

/-- A fault of an instruction is that of its checks, or that of its memory operand once they let it through. -/
theorem exec_eq_fault {i : Instr} {s : State} {r : Fault} :
    exec i s = .fault r ↔ s.gate i.form (illegalOf i) = some (.fault r) ∨
      (s.gate i.form (illegalOf i) = none ∧ s.loadSrc2 i.form i.bcast (operandsOf i) = .error (.fault r)) := by
  rw [exec_eq_runForm, State.runForm_eq_fault]

/-- A fault of the second source is a memory operand's, so neither #UD nor #NM. -/
theorem State.loadSrc2_exc {s : State} {f : Form} {bcast : Bool} {o : Operands} {x : Exc} {pc : Word}
    (h : s.loadSrc2 f bcast o = .error (.fault (.exception x pc))) :
    x = .ss ∨ x = .gp ∨ x = .ac ∨ ∃ code addr, x = .pf code addr := by
  obtain ⟨m, y, -, hy, hxy⟩ := State.loadSrc2_eq_fault h
  cases hxy
  exact State.operandFault_eq_some hy

/-- #UD and #NM come from the checks alone. -/
theorem exec_eq_checkFault {i : Instr} {s : State} {x : Exc} {pc : Word} (hx : x = .ud ∨ x = .nm) :
    exec i s = .fault (.exception x pc) ↔ s.gate i.form (illegalOf i) = some (.fault (.exception x pc)) := by
  rw [exec_eq_fault]
  refine or_iff_left fun ⟨_, hload⟩ => ?_
  have := State.loadSrc2_exc hload
  obtain rfl | rfl := hx <;> simp at this

end Sys2Proof.Machine
end

section
/-! #UD and #NM, exactly (R173, R174, R176, R181 steps 2 and 3). -/

namespace Sys2Proof.Machine

/-- #UD in 64-bit mode: illegal prefixes or fields, a feature flag that the configuration lacks, or a form that the control
registers do not enable. -/
theorem exec_eq_ud {i : Instr} {s : State} (hv : s.cfg.valid = true) (hm : s.mode = .mode64) :
    exec i s = .fault (.exception .ud s.pc) ↔
      illegalOf i = true ∨ admits s.cfg.features i.form = false ∨ s.usable i.form = false := by
  rw [exec_eq_checkFault (.inl rfl), State.gate_mode64 _ _ hv hm]
  split
  · simp_all [State.raise, or_assoc]
  · split <;> simp_all [State.raise]

/-- #NM in 64-bit mode: CR0.TS is set and no #UD condition comes before it. -/
theorem exec_eq_nm {i : Instr} {s : State} (hv : s.cfg.valid = true) (hm : s.mode = .mode64) :
    exec i s = .fault (.exception .nm s.pc) ↔ s.ts = true ∧ exec i s ≠ .fault (.exception .ud s.pc) := by
  rw [ne_eq, exec_eq_checkFault (.inr rfl), exec_eq_checkFault (.inl rfl), State.gate_mode64 _ _ hv hm]
  split
  · simp [State.raise]
  · split <;> simp_all [State.raise]

/-- A form that needs protected mode is #UD in real-address and virtual-8086 mode (R174, R175). -/
theorem exec_ud_of_realOrV86 {i : Instr} {s : State} (hv : s.cfg.valid = true) (hn : needsProtected i.form = true)
    (hm : s.mode = .real ∨ s.mode = .virtual8086) : exec i s = .fault (.exception .ud s.pc) := by
  have hr : s.realOrV86 = true := by simpa [State.realOrV86] using hm
  rw [exec_eq_checkFault (.inl rfl)]
  simp [State.gate, hv, hr, hn, State.raise]

/-- The prefixes that may not precede the VEX and EVEX ones (R92, R97). -/
theorem Prefix.beforeVex_eq_false {p : Prefix} :
    p.beforeVex = false ↔ p = .lock ∨ p = .opSize ∨ p = .repne ∨ p = .rep ∨ ∃ w, p = .rex w := by
  cases p <;> simp [Prefix.beforeVex]

theorem vexIllegal_iff {pre : List Prefix} :
    vexIllegal pre = true ↔ ∃ p ∈ pre, p = .lock ∨ p = .opSize ∨ p = .repne ∨ p = .rep ∨ ∃ w, p = .rex w := by
  simp [vexIllegal, ← Prefix.beforeVex_eq_false]

theorem illegalOf_vex {i : Instr} (h : isVex i = true) : illegalOf i = vexIllegal (prefixesOf i) := by
  cases i <;> cases h <;> rfl

/-- Forms 2 and 3 are the forms of the VEX class. -/
theorem form_of_isVex {i : Instr} (h : isVex i = true) : i.form = .vex128 ∨ i.form = .vex256 := by
  cases i <;> cases h <;> simp [Instr.form]

/-- Forms 2 and 3 need the AVX flag (R2). -/
theorem admits_vex {i : Instr} (h : isVex i = true) (c : Features) : admits c i.form = c.avx := by
  obtain hf | hf := form_of_isVex h <;> rw [hf] <;> rfl

/-- What 64-bit mode asks of the control registers before forms 2 and 3 (R30). -/
theorem usable_vex {i : Instr} {s : State} (h : isVex i = true) (hm : s.mode = .mode64) :
    s.usable i.form = (s.osxsave && s.xcr0Avx) := by
  have hr : s.realOrV86 = false := by simp [State.realOrV86, hm]
  obtain hf | hf := form_of_isVex h <;> simp [hf, State.usable, hr]

/-- Settles O17: the three kinds of #UD condition, for form 1. -/
theorem invalidOpcodeFormOne : Obligations.InvalidOpcodeFormOne := by
  intro e s hv hm
  have hill : illegalOf (.xorps e) = true ↔ .lock ∈ e.pre := by simp [illegalOf, legacyIllegal]
  have huse : s.usable .sse = false ↔ s.cr0.getLsbD 2 = true ∨ s.cr4.getLsbD 9 = false := by
    rw [State.usable, Bool.and_eq_false_iff, Bool.not_eq_false']
    rfl
  rw [exec_eq_ud hv hm, hill]
  exact or_congr_right (or_congr_right huse)

/-- Settles O18: the three kinds of #UD condition, for the VEX class, and the mode check before them. -/
theorem invalidOpcodeVex : Obligations.InvalidOpcodeVex := by
  intro i s hx hv
  refine ⟨fun hm => ?_, exec_ud_of_realOrV86 hv ?_⟩
  · have huse : s.usable i.form = false ↔
        s.cr4.getLsbD 18 = false ∨ ¬ (s.xcr0.getLsbD 1 = true ∧ s.xcr0.getLsbD 2 = true) := by
      rw [usable_vex hx hm, Bool.and_eq_false_iff, ← Bool.and_eq_true, Bool.not_eq_true]
      rfl
    rw [exec_eq_ud hv hm, illegalOf_vex hx, vexIllegal_iff, admits_vex hx, huse]
  · obtain hf | hf := form_of_isVex hx <;> rw [hf] <;> rfl

/-- Settles O21: #NM is the check that comes right after #UD. -/
theorem deviceNotAvailableExactly : Obligations.DeviceNotAvailableExactly :=
  fun _ _ hv hm => exec_eq_nm hv hm

end Sys2Proof.Machine
end

section
/-! Alignment of a canonical memory operand (R55, R178): #GP(0) under form 1 only. -/

namespace Sys2Proof.Machine

/-- Form 1 checks alignment right after canonical form (R181 step 5). -/
theorem State.operandFault_sse_misaligned {s : State} {g : Seg} {a n : Nat}
    (hc : canonicalRange s.cfg.va.bits a n = true) (ha : a % 16 ≠ 0) : s.operandFault .sse g a n = some .gp := by
  simp [State.operandFault, hc, ha]

/-- The only exception left to a canonical operand of forms 2 to 6 that the oracle lets through is #AC (R56, R180). -/
theorem State.operandFault_of_translate_eq_none {s : State} {f : Form} {g : Seg} {a n : Nat}
    (hc : canonicalRange s.cfg.va.bits a n = true) (hf : f ≠ .sse) (ht : s.translate a n .read = none) :
    s.operandFault f g a n = if s.acFault f a n = true then some .ac else none := by
  simp [State.operandFault, hc, hf, ht]

/-- Settles O25: the operand's checks from canonical form on, for form 1 and for the others. -/
theorem onlyFormOneFaultsOnAlignment : Obligations.OnlyFormOneFaultsOnAlignment := by
  intro i s m hr hl hm hc
  rw [ne_eq (exec i s), exec_eq_operandFault hr hl hm]
  refine ⟨fun hf ha => ?_, fun hf ht => ?_⟩
  · rw [hf]
    exact State.operandFault_sse_misaligned hc ha
  · rw [State.operandFault_of_translate_eq_none hc hf ht]
    split <;> simp

end Sys2Proof.Machine
end

section
/-! #XM and MXCSR (R170): no source of an exception in a step gives #XM, and no step writes MXCSR. -/

namespace Sys2Proof.Machine

theorem XlatEntry.exc_ne_xm (e : XlatEntry) (a : Nat) {x : Exc} (hx : x ≠ .xm) : e.exc a x ≠ .xm := by
  obtain he | ⟨code, addr, he⟩ := e.exc_eq a x <;> simp [he, hx]

theorem State.fetchFault_ne_xm (s : State) (a : Nat) : s.fetchFault a ≠ some .xm := by
  unfold State.fetchFault
  split
  · split
    · simp
    · rename_i e _
      simpa using e.exc_ne_xm a (x := .gp) (by simp)
  · simp

/-- A fetch that a fault ends has the fault of one of its bytes. -/
theorem State.fetchBytes_eq_faulting {s : State} {n a : Nat} {x : Exc} (h : (s.fetchBytes n a).2 = .faulting x) :
    ∃ b, s.fetchFault b = some x := by
  induction n generalizing a with
  | zero => simp [State.fetchBytes] at h
  | succ n ih =>
    simp only [State.fetchBytes] at h
    split at h
    · split at h
      · rename_i y hy
        cases h
        exact ⟨a, hy⟩
      · exact ih h
    · cases h

/-- Bytes of no instruction raise #UD, #GP or the fault that ended their fetch (R97, R102, R181). -/
theorem State.rejected_eq_fault {s : State} {why : Reject} {fe : FetchEnd} {x : Exc} {pc : Word}
    (h : s.rejected why fe = .fault (.exception x pc)) : x = .ud ∨ x = .gp ∨ fe = .faulting x := by
  cases why with
  | truncated => cases fe <;> simp_all [State.rejected, State.raise]
  | _ => simp_all [State.rejected, State.raise]

theorem State.rejected_fetch_ne_xm (s : State) (why : Reject) (pc : Word) :
    s.rejected why s.fetch.2 ≠ .fault (.exception .xm pc) := by
  intro h
  obtain hx | hx | hx := State.rejected_eq_fault h
  · cases hx
  · cases hx
  · obtain ⟨b, hb⟩ := State.fetchBytes_eq_faulting hx
    exact s.fetchFault_ne_xm b hb

theorem exec_ne_xm (i : Instr) (s : State) (pc : Word) : exec i s ≠ .fault (.exception .xm pc) := by
  intro h
  obtain hgate | ⟨-, hload⟩ := exec_eq_fault.1 h
  · simpa using State.gate_eq_fault hgate
  · simpa using State.loadSrc2_exc hload

/-- A step's fault: one recorded before, one of the instruction at pc, or one of bytes that are no instruction. -/
theorem step_eq_fault {s : State} {r : Fault} (h : step s = .fault r) :
    s.fault = some r ∨ (∃ i, exec i s = .fault r) ∨ ∃ why, s.rejected why s.fetch.2 = .fault r := by
  unfold step at h
  split at h
  · cases h
    exact .inl ‹_›
  · split at h
    · cases h
    · split at h
      · cases h
      · split at h
        · cases h
        · split at h
          · exact .inr (.inl ⟨_, h⟩)
          · rename_i why _
            refine .inr (.inr ⟨why, ?_⟩)
            cases hs : s.rejected why s.fetch.2 <;> simp_all [Stop.outcome]

theorem step_next_mxcsr {s t : State} (h : step s = .next t) : t.mxcsr = s.mxcsr := by
  obtain ⟨_, _, _, _, rfl⟩ := step_next_sameButVectorsAndPc h
  rfl

/-- Settles O42: none of a step's three sources of a fault gives #XM, and a completed step leaves MXCSR as it was. -/
theorem noSimdFloatingPointException : Obligations.NoSimdFloatingPointException := by
  refine fun s => ⟨fun pc hfault h => ?_, fun t => step_next_mxcsr⟩
  obtain hrec | ⟨i, hexec⟩ | ⟨why, hrej⟩ := step_eq_fault h
  · exact hfault hrec
  · exact exec_ne_xm i s pc hexec
  · exact s.rejected_fetch_ne_xm why pc hrej

end Sys2Proof.Machine
end

section
/-! The decoder and the encoder are inverse to each other (R80 to R102): class by class behind the prefixes, then with
the prefixes and the length check. -/

namespace Sys2Proof

/-- The instruction of forms 2 and 3 in the two-byte spelling, by VEX.L (R91). -/
def vex2Instr (l : Bool) (e : Vex2) : Instr := if l then .vxorpsVex256C5 e else .vxorpsVex128C5 e

/-- The instruction of forms 2 and 3 in the three-byte spelling, by VEX.L (R91). -/
def vex3Instr (l : Bool) (e : Vex3) : Instr := if l then .vxorpsVex256C4 e else .vxorpsVex128C4 e

/-- The instruction of forms 4, 5 and 6, by EVEX.L'L (R94). -/
def evexInstr (ll : BitVec 2) (e : Evex) : Instr :=
  if ll = 0 then .vxorpsEvex128 e else if ll = 1 then .vxorpsEvex256 e else .vxorpsEvex512 e

theorem vectorLength_cases {ll : BitVec 2} (h : ll ≠ 3) : ll = 0 ∨ ll = 1 ∨ ll = 2 := by
  revert ll
  decide

theorem encode_vex2Instr (l : Bool) (e : Vex2) : encode (vex2Instr l e) = e.bytes l := by cases l <;> rfl

theorem encode_vex3Instr (l : Bool) (e : Vex3) : encode (vex3Instr l e) = e.bytes l := by cases l <;> rfl

theorem encode_evexInstr {ll : BitVec 2} (h : ll ≠ 3) (e : Evex) : encode (evexInstr ll e) = e.bytes ll := by
  obtain rfl | rfl | rfl := vectorLength_cases h
  all_goals rfl

theorem fieldsWellFormed_vex2Instr (l : Bool) (e : Vex2) : (vex2Instr l e).fieldsWellFormed = e.wellFormed := by
  cases l <;> rfl

theorem fieldsWellFormed_vex3Instr (l : Bool) (e : Vex3) : (vex3Instr l e).fieldsWellFormed = e.wellFormed := by
  cases l <;> rfl

theorem fieldsWellFormed_evexInstr (ll : BitVec 2) (e : Evex) : (evexInstr ll e).fieldsWellFormed = e.wellFormed := by
  unfold evexInstr
  split
  · rfl
  · split <;> rfl

theorem Legacy.wellFormed_iff {e : Legacy} : e.wellFormed = true ↔
    prefixesWellFormed e.pre = true ∧ e.pre.any Prefix.isMandatory = false ∧ e.rm.wellFormed = true := by
  simp only [Legacy.wellFormed, Bool.and_eq_true, Bool.not_eq_true', and_assoc]

theorem Vex2.wellFormed_iff {e : Vex2} :
    e.wellFormed = true ↔ prefixesWellFormed e.pre = true ∧ e.rm.wellFormed = true := by
  simp only [Vex2.wellFormed, Bool.and_eq_true]

theorem Vex3.wellFormed_iff {e : Vex3} :
    e.wellFormed = true ↔ prefixesWellFormed e.pre = true ∧ e.rm.wellFormed = true := by
  simp only [Vex3.wellFormed, Bool.and_eq_true]

theorem Evex.wellFormed_iff {e : Evex} :
    e.wellFormed = true ↔ prefixesWellFormed e.pre = true ∧ e.rm.wellFormed = true := by
  simp only [Evex.wellFormed, Bool.and_eq_true]

theorem Instr.wellFormed_iff {i : Instr} : i.wellFormed = true ↔ i.fieldsWellFormed = true ∧ i.len ≤ maxLen := by
  simp only [Instr.wellFormed, Bool.and_eq_true, decide_eq_true_eq]

/-! ## From instruction to bytes and back -/

theorem decodeLegacy_bytes {pre : List Prefix} {rm : RM} (g : BitVec 3) (hm : pre.any Prefix.isMandatory = false)
    (hw : rm.wellFormed = true) (rest : List Byte) :
    decodeLegacy pre (0x57 :: (rm.bytes g ++ rest)) = .ok (.xorps ⟨pre, g, rm⟩, rest) := by
  simp [decodeLegacy, parseRM_bytes g rm hw, hm]

theorem decodeVex2_bytes {e : Vex2} (l : Bool) (hw : e.rm.wellFormed = true) (rest : List Byte) :
    decodeVex2 e.pre ((bit1 (!e.r) ++ ~~~e.vvvv ++ bit1 l ++ (0 : BitVec 2)) :: 0x57 :: (e.rm.bytes e.reg ++ rest)) =
      .ok (vex2Instr l e, rest) := by
  obtain ⟨hr, hv, hl, hpp⟩ := vex2Byte_fields e.r e.vvvv l
  simp only [decodeVex2, parseRM_bytes _ _ hw, hr, hv, hl, hpp]
  cases l <;> rfl

theorem decodeVex3_bytes {e : Vex3} (l : Bool) (hw : e.rm.wellFormed = true) (rest : List Byte) :
    decodeVex3 e.pre ((bit1 (!e.r) ++ bit1 (!e.x) ++ bit1 (!e.b) ++ (1 : BitVec 5)) ::
      (bit1 e.w ++ ~~~e.vvvv ++ bit1 l ++ (0 : BitVec 2)) :: 0x57 :: (e.rm.bytes e.reg ++ rest)) =
      .ok (vex3Instr l e, rest) := by
  obtain ⟨hr, hx, hb, hmap⟩ := vex3Byte_fields e.r e.x e.b
  obtain ⟨hW, hv, hl, hpp⟩ := vex3Byte2_fields e.w e.vvvv l
  simp only [decodeVex3, parseRM_bytes _ _ hw, hr, hx, hb, hmap, hW, hv, hl, hpp]
  cases l <;> rfl

theorem decodeEvex_bytes {e : Evex} {ll : BitVec 2} (hll : ll ≠ 3) (hw : e.rm.wellFormed = true) (rest : List Byte) :
    decodeEvex e.pre ((bit1 (!e.r) ++ bit1 (!e.x) ++ bit1 (!e.b) ++ bit1 (!e.r2) ++ (1 : BitVec 4)) ::
      (bit1 false ++ ~~~e.vvvv ++ (4 : BitVec 3)) ::
      (bit1 e.z ++ ll ++ bit1 e.bc ++ bit1 (!e.v2) ++ e.aaa) :: 0x57 :: (e.rm.bytes e.reg ++ rest)) =
      .ok (evexInstr ll e, rest) := by
  obtain ⟨hr, hx, hb, hr2, h3, hmap⟩ := evexP0_fields e.r e.x e.b e.r2
  obtain ⟨hv, h7, h2, hpp⟩ := evexP1_fields e.vvvv
  obtain ⟨hz, hl, hbc, hv2, haaa⟩ := evexP2_fields e.z ll e.bc e.v2 e.aaa
  simp only [decodeEvex, parseRM_bytes _ _ hw, hr, hx, hb, hr2, h3, hmap, hv, h7, h2, hpp, hz, hl, hbc, hv2, haaa]
  obtain rfl | rfl | rfl := vectorLength_cases hll
  all_goals rfl

/-- Prefixes and a class whose bytes decode make an instruction, if it is not too long. -/
theorem decode_of_decodeClass {pre : List Prefix} {tail rest : List Byte} {i : Instr} (hp : prefixesWellFormed pre = true)
    (hn : noPrefixFirst tail) (hc : decodeClass pre tail = .ok (i, rest)) (hl : i.len ≤ maxLen) :
    decode (pre.map Prefix.toByte ++ tail) = .ok (i, rest) := by
  rw [decode_map hp hn, hc]
  exact if_pos hl

theorem decode_vex2Bytes (l : Bool) {e : Vex2} (hw : (vex2Instr l e).wellFormed = true) (rest : List Byte) :
    decode (e.bytes l ++ rest) = .ok (vex2Instr l e, rest) := by
  obtain ⟨hf, hl⟩ := Instr.wellFormed_iff.1 hw
  rw [fieldsWellFormed_vex2Instr] at hf
  obtain ⟨hp, hrm⟩ := Vex2.wellFormed_iff.1 hf
  rw [Vex2.bytes, List.append_assoc]
  exact decode_of_decodeClass hp (show Prefix.ofByte 0xC5 = none by decide) (decodeVex2_bytes l hrm rest) hl

theorem decode_vex3Bytes (l : Bool) {e : Vex3} (hw : (vex3Instr l e).wellFormed = true) (rest : List Byte) :
    decode (e.bytes l ++ rest) = .ok (vex3Instr l e, rest) := by
  obtain ⟨hf, hl⟩ := Instr.wellFormed_iff.1 hw
  rw [fieldsWellFormed_vex3Instr] at hf
  obtain ⟨hp, hrm⟩ := Vex3.wellFormed_iff.1 hf
  rw [Vex3.bytes, List.append_assoc]
  exact decode_of_decodeClass hp (show Prefix.ofByte 0xC4 = none by decide) (decodeVex3_bytes l hrm rest) hl

theorem decode_evexBytes {ll : BitVec 2} (hll : ll ≠ 3) {e : Evex} (hw : (evexInstr ll e).wellFormed = true)
    (rest : List Byte) : decode (e.bytes ll ++ rest) = .ok (evexInstr ll e, rest) := by
  obtain ⟨hf, hl⟩ := Instr.wellFormed_iff.1 hw
  rw [fieldsWellFormed_evexInstr] at hf
  obtain ⟨hp, hrm⟩ := Evex.wellFormed_iff.1 hf
  rw [Evex.bytes, List.append_assoc]
  exact decode_of_decodeClass hp (show Prefix.ofByte 0x62 = none by decide) (decodeEvex_bytes hll hrm rest) hl

/-- Settles O2: each class decodes its own bytes. -/
theorem decodeInvertsEncode : Obligations.DecodeInvertsEncode := by
  intro i rest hw
  cases i with
  | xorps e =>
    obtain ⟨hf, hl⟩ := Instr.wellFormed_iff.1 hw
    obtain ⟨hp, hm, hrm⟩ := Legacy.wellFormed_iff.1 hf
    rw [encode, Legacy.bytes, List.append_assoc]
    exact decode_of_decodeClass hp (show Prefix.ofByte 0x0F = none by decide) (decodeLegacy_bytes e.reg hm hrm rest) hl
  | vxorpsVex128C5 e => exact decode_vex2Bytes false hw rest
  | vxorpsVex128C4 e => exact decode_vex3Bytes false hw rest
  | vxorpsVex256C5 e => exact decode_vex2Bytes true hw rest
  | vxorpsVex256C4 e => exact decode_vex3Bytes true hw rest
  | vxorpsEvex128 e  => exact decode_evexBytes (ll := 0) (by decide) hw rest
  | vxorpsEvex256 e  => exact decode_evexBytes (ll := 1) (by decide) hw rest
  | vxorpsEvex512 e  => exact decode_evexBytes (ll := 2) (by decide) hw rest

/-! ## From bytes to instruction and back -/

theorem prefixesWellFormed_iff {pre : List Prefix} :
    prefixesWellFormed pre = true ↔ repeatsPrefix pre = false ∧ hasTwoSegments pre = false := by
  simp only [prefixesWellFormed, Bool.and_eq_true, Bool.not_eq_true']

/-- What the decoder accepts: prefixes that R86 does not refuse, then a class, in at most 15 bytes. -/
theorem decode_eq_ok {bs rest : List Byte} {i : Instr} (h : decode bs = .ok (i, rest)) :
    ∃ pre tail, pre.map Prefix.toByte ++ tail = bs ∧ prefixesWellFormed pre = true ∧
      decodeClass pre tail = .ok (i, rest) ∧ i.len ≤ maxLen := by
  refine ⟨(scanPrefixes bs).1, (scanPrefixes bs).2, map_scanPrefixes bs, ?_⟩
  have hlen := len_le_of_decode h
  unfold decode at h
  split at h
  · cases h
  · rename_i hrep
    split at h
    · cases h
    · rename_i hseg
      refine ⟨prefixesWellFormed_iff.2 ⟨by simpa using hrep, by simpa using hseg⟩, ?_, hlen⟩
      split at h
      · cases h
      · rename_i hc
        split at h
        · cases h
          exact hc
        · cases h

/-- `i` is well-formed and is written as these prefixes, these bytes and the rest (R80). -/
def WrittenAs (pre : List Prefix) (tail : List Byte) (i : Instr) (rest : List Byte) : Prop :=
  i.fieldsWellFormed = true ∧ encode i ++ rest = pre.map Prefix.toByte ++ tail

theorem writtenAs_of_decodeLegacy {pre : List Prefix} {bs rest : List Byte} {i : Instr}
    (hp : prefixesWellFormed pre = true) (h : decodeLegacy pre bs = .ok (i, rest)) : WrittenAs pre (0x0F :: bs) i rest := by
  unfold decodeLegacy at h
  split at h
  · cases h
  · rename_i op tail
    split at h
    · cases h
    · rename_i hop
      obtain rfl : op = 0x57 := by simpa using hop
      split at h
      · cases h
      · rename_i hrm
        split at h
        · cases h
        · rename_i hm
          cases h
          obtain ⟨rfl, hw⟩ := bytes_of_parseRM hrm
          exact ⟨Legacy.wellFormed_iff.2 ⟨hp, by simpa using hm, hw⟩, by simp [encode, Legacy.bytes]⟩

theorem writtenAs_vex2 {e : Vex2} {l : Bool} {v1 : Byte} {rest : List Byte} (hp : prefixesWellFormed e.pre = true)
    (hw : e.rm.wellFormed = true) (hv : bit1 (!e.r) ++ ~~~e.vvvv ++ bit1 l ++ (0 : BitVec 2) = v1) :
    WrittenAs e.pre (0xC5 :: v1 :: 0x57 :: (e.rm.bytes e.reg ++ rest)) (vex2Instr l e) rest := by
  refine ⟨?_, ?_⟩
  · rw [fieldsWellFormed_vex2Instr]
    exact Vex2.wellFormed_iff.2 ⟨hp, hw⟩
  · rw [encode_vex2Instr, Vex2.bytes, hv]
    simp

theorem writtenAs_of_decodeVex2 {pre : List Prefix} {bs rest : List Byte} {i : Instr}
    (hp : prefixesWellFormed pre = true) (h : decodeVex2 pre bs = .ok (i, rest)) : WrittenAs pre (0xC5 :: bs) i rest := by
  unfold decodeVex2 at h
  split at h
  · rename_i v1 op tail
    split at h
    · cases h
    · rename_i hop
      obtain rfl : op = 0x57 := by simpa using hop
      split at h
      · cases h
      · rename_i g rm rest' hrm
        obtain ⟨rfl, hw⟩ := bytes_of_parseRM hrm
        split at h
        · cases h
        · rename_i hpp
          have hv := vex2Byte_of v1 (by simpa using hpp)
          cases hl : v1.getLsbD 2 <;> rw [hl] at h hv <;> cases h
          · exact writtenAs_vex2 (l := false) hp hw hv
          · exact writtenAs_vex2 (l := true) hp hw hv
  · cases h

theorem writtenAs_vex3 {e : Vex3} {l : Bool} {v1 v2 : Byte} {rest : List Byte} (hp : prefixesWellFormed e.pre = true)
    (hw : e.rm.wellFormed = true) (hv1 : bit1 (!e.r) ++ bit1 (!e.x) ++ bit1 (!e.b) ++ (1 : BitVec 5) = v1)
    (hv2 : bit1 e.w ++ ~~~e.vvvv ++ bit1 l ++ (0 : BitVec 2) = v2) :
    WrittenAs e.pre (0xC4 :: v1 :: v2 :: 0x57 :: (e.rm.bytes e.reg ++ rest)) (vex3Instr l e) rest := by
  refine ⟨?_, ?_⟩
  · rw [fieldsWellFormed_vex3Instr]
    exact Vex3.wellFormed_iff.2 ⟨hp, hw⟩
  · rw [encode_vex3Instr, Vex3.bytes, hv1, hv2]
    simp

theorem writtenAs_of_decodeVex3 {pre : List Prefix} {bs rest : List Byte} {i : Instr}
    (hp : prefixesWellFormed pre = true) (h : decodeVex3 pre bs = .ok (i, rest)) : WrittenAs pre (0xC4 :: bs) i rest := by
  unfold decodeVex3 at h
  split at h
  · rename_i v1 v2 op tail
    split at h
    · cases h
    · rename_i hop
      obtain rfl : op = 0x57 := by simpa using hop
      split at h
      · cases h
      · rename_i g rm rest' hrm
        obtain ⟨rfl, hw⟩ := bytes_of_parseRM hrm
        split at h
        · cases h
        · rename_i hother
          obtain ⟨hpp, hmap⟩ := not_or.1 hother
          have hv1 := vex3Byte_of v1 (not_not.1 hmap)
          have hv2 := vex3Byte2_of v2 (not_not.1 hpp)
          cases hl : v2.getLsbD 2 <;> rw [hl] at h hv2 <;> cases h
          · exact writtenAs_vex3 (l := false) hp hw hv1 hv2
          · exact writtenAs_vex3 (l := true) hp hw hv1 hv2
  · cases h

theorem writtenAs_evex {e : Evex} {ll : BitVec 2} (hll : ll ≠ 3) {p0 p1 p2 : Byte} {rest : List Byte}
    (hp : prefixesWellFormed e.pre = true) (hw : e.rm.wellFormed = true)
    (hp0 : bit1 (!e.r) ++ bit1 (!e.x) ++ bit1 (!e.b) ++ bit1 (!e.r2) ++ (1 : BitVec 4) = p0)
    (hp1 : bit1 false ++ ~~~e.vvvv ++ (4 : BitVec 3) = p1)
    (hp2 : bit1 e.z ++ ll ++ bit1 e.bc ++ bit1 (!e.v2) ++ e.aaa = p2) :
    WrittenAs e.pre (0x62 :: p0 :: p1 :: p2 :: 0x57 :: (e.rm.bytes e.reg ++ rest)) (evexInstr ll e) rest := by
  refine ⟨?_, ?_⟩
  · rw [fieldsWellFormed_evexInstr]
    exact Evex.wellFormed_iff.2 ⟨hp, hw⟩
  · rw [encode_evexInstr hll, Evex.bytes, hp0, hp1, hp2]
    simp

theorem writtenAs_of_decodeEvex {pre : List Prefix} {bs rest : List Byte} {i : Instr}
    (hp : prefixesWellFormed pre = true) (h : decodeEvex pre bs = .ok (i, rest)) : WrittenAs pre (0x62 :: bs) i rest := by
  unfold decodeEvex at h
  split at h
  · rename_i p0 p1 p2 op tail
    split at h
    · cases h
    · rename_i hop
      obtain rfl : op = 0x57 := by simpa using hop
      split at h
      · cases h
      · rename_i g rm rest' hrm
        obtain ⟨rfl, hw⟩ := bytes_of_parseRM hrm
        split at h
        · cases h
        · rename_i hfixed
          obtain ⟨h3, h2⟩ := not_or.1 hfixed
          split at h
          · cases h
          · rename_i hother
            obtain ⟨hpp, hmap⟩ := not_or.1 hother
            split at h
            · cases h
            · rename_i h7
              have hp0 := evexP0_of p0 (by simpa using h3) (not_not.1 hmap)
              have hp1 := evexP1_of p1 (by simpa using h7) (by simpa using h2) (not_not.1 hpp)
              have hp2 := evexP2_of p2
              split at h
              · rename_i hll
                cases h
                exact writtenAs_evex (ll := 0) (by decide) hp hw hp0 hp1 (hll ▸ hp2)
              · split at h
                · rename_i hll
                  cases h
                  exact writtenAs_evex (ll := 1) (by decide) hp hw hp0 hp1 (hll ▸ hp2)
                · split at h
                  · rename_i hll
                    cases h
                    exact writtenAs_evex (ll := 2) (by decide) hp hw hp0 hp1 (hll ▸ hp2)
                  · cases h
  · cases h

theorem writtenAs_of_decodeClass {pre : List Prefix} {tail rest : List Byte} {i : Instr}
    (hp : prefixesWellFormed pre = true) (h : decodeClass pre tail = .ok (i, rest)) : WrittenAs pre tail i rest := by
  unfold decodeClass at h
  split at h
  · cases h
  · rename_i b bs
    split at h
    · rename_i hb
      subst hb
      exact writtenAs_of_decodeLegacy hp h
    · split at h
      · rename_i hb
        subst hb
        exact writtenAs_of_decodeVex2 hp h
      · split at h
        · rename_i hb
          subst hb
          exact writtenAs_of_decodeVex3 hp h
        · split at h
          · rename_i hb
            subst hb
            exact writtenAs_of_decodeEvex hp h
          · cases h

/-- Settles O3: the prefixes scanned and the class decoded are both written back. -/
theorem encodeInvertsDecode : Obligations.EncodeInvertsDecode := by
  intro bs rest i h
  obtain ⟨pre, tail, rfl, hp, hc, hlen⟩ := decode_eq_ok h
  obtain ⟨hw, hbytes⟩ := writtenAs_of_decodeClass hp hc
  exact ⟨Instr.wellFormed_iff.2 ⟨hw, hlen⟩, hbytes⟩

end Sys2Proof
end

section
/-! The vector registers an admitted form names exist (R6, R22). -/

namespace Sys2Proof.Machine

/-- Every vector register the operands name has a number below `m`. -/
def Operands.NamesBelow (o : Operands) (m : Nat) : Prop :=
  o.dest.toNat < m ∧ o.src1.toNat < m ∧ ∀ n, o.src2 = .reg n → n.toNat < m

theorem Operands.namesBelow_32 (o : Operands) : o.NamesBelow 32 :=
  ⟨o.dest.isLt, o.src1.isLt, fun n _ => n.isLt⟩

theorem Operands.NamesBelow.mono {o : Operands} {m m' : Nat} (h : o.NamesBelow m) (hm : m ≤ m') : o.NamesBelow m' := by
  obtain ⟨hd, h1, h2⟩ := h
  exact ⟨hd.trans_le hm, h1.trans_le hm, fun n hn => (h2 n hn).trans_le hm⟩

theorem num5_false_lt (e : Bool) (n : BitVec 3) : (num5 false e n).toNat < 16 := by
  revert e n
  decide

theorem bit1_false_append_lt (n : BitVec 4) : (bit1 false ++ n).toNat < 16 := by
  revert n
  decide

/-- A register r/m is numbered by the class's own rule (R88, R90, R95). -/
theorem src2Of_eq_reg {regNum : BitVec 3 → BitVec 5} {x b : Bool} {n : Nat} {rm : RM} {r : BitVec 5}
    (h : src2Of regNum x b n rm = .reg r) : ∃ k, rm = .reg k ∧ r = regNum k := by
  cases rm with
  | reg k =>
    cases h
    exact ⟨k, rfl, rfl⟩
  | mem a => cases h

theorem legacyOperands_namesBelow (e : Legacy) : (legacyOperands e).NamesBelow 16 := by
  refine ⟨num5_false_lt _ _, num5_false_lt _ _, fun n hn => ?_⟩
  obtain ⟨k, -, rfl⟩ := src2Of_eq_reg hn
  exact num5_false_lt _ _

theorem vex2Operands_namesBelow (e : Vex2) : (vex2Operands e).NamesBelow 16 := by
  refine ⟨num5_false_lt _ _, bit1_false_append_lt _, fun n hn => ?_⟩
  obtain ⟨k, -, rfl⟩ := src2Of_eq_reg hn
  exact num5_false_lt _ _

theorem vex3Operands_namesBelow (e : Vex3) : (vex3Operands e).NamesBelow 16 := by
  refine ⟨num5_false_lt _ _, bit1_false_append_lt _, fun n hn => ?_⟩
  obtain ⟨k, -, rfl⟩ := src2Of_eq_reg hn
  exact num5_false_lt _ _

theorem sixteen_le_nvec (c : Config) : 16 ≤ c.nvec := by
  unfold Config.nvec
  split <;> omega

/-- A configuration of the model that has a form's feature flags has its vector length (R6, R31). -/
theorem vl_le_maxvl {c : Config} {f : Form} (hv : c.valid = true) (ha : admits c.features f = true) :
    f.vl ≤ c.maxvl.bits := by
  obtain ⟨hz, hy⟩ : (c.features.avx512f = true → c.maxvl = .w512) ∧ (c.features.avx = true → c.maxvl ≠ .w128) := by
    simpa [Config.valid, ← Bool.not_eq_true, imp_iff_not_or] using hv
  cases f with
  | sse | vex128 => cases c.maxvl <;> simp [Form.vl, MaxVl.bits]
  | vex256 =>
    have := hy ha
    cases hm : c.maxvl <;> simp_all [Form.vl, MaxVl.bits]
  | evex128 | evex256 | evex512 =>
    have hf : c.features.avx512f = true := by
      simp only [admits, Bool.and_eq_true] at ha
      tauto
    simp [hz hf, Form.vl, MaxVl.bits]

/-- The EVEX forms are admitted only where 32 vector registers exist (R6, R22). -/
theorem nvec_of_evex {i : Instr} {e : Evex} {c : Config} (he : evexOf i = some e) (hv : c.valid = true)
    (ha : admits c.features i.form = true) : c.nvec = 32 := by
  have hf : c.features.avx512f = true := by
    cases i <;> cases he <;> (simp only [Instr.form, admits, Bool.and_eq_true] at ha; tauto)
  have hm : c.maxvl = .w512 := by simpa [Config.valid, hf] using (Bool.and_eq_true_iff.1 hv).1
  simp [Config.nvec, hm]

theorem operandsOf_namesBelow_nvec {i : Instr} {c : Config} (hv : c.valid = true)
    (ha : admits c.features i.form = true) : (operandsOf i).NamesBelow c.nvec := by
  cases i with
  | xorps e => exact (legacyOperands_namesBelow e).mono (sixteen_le_nvec c)
  | vxorpsVex128C5 e | vxorpsVex256C5 e => exact (vex2Operands_namesBelow e).mono (sixteen_le_nvec c)
  | vxorpsVex128C4 e | vxorpsVex256C4 e => exact (vex3Operands_namesBelow e).mono (sixteen_le_nvec c)
  | vxorpsEvex128 e | vxorpsEvex256 e | vxorpsEvex512 e =>
    rw [nvec_of_evex rfl hv ha]
    exact Operands.namesBelow_32 _

/-- Settles O7: below 16 in the legacy and VEX classes, and any number where the EVEX forms are admitted. -/
theorem namedRegistersExist : Obligations.NamedRegistersExist :=
  fun _ _ hv ha => operandsOf_namesBelow_nvec hv ha

end Sys2Proof.Machine
end

section
/-! The invariant of the state (R6, R20, R22, R24, R27): it holds at reset, and every step keeps it. -/

namespace Sys2Proof.Machine

/-- A form that executes normally, taken apart (R30, R201). -/
theorem State.ready_iff {s : State} {f : Form} : s.ready f = true ↔
    s.cfg.valid = true ∧ s.mode = .mode64 ∧ admits s.cfg.features f = true ∧ s.enabled f = true := by
  simp only [State.ready, Bool.and_eq_true, beq_iff_eq, and_assoc]

/-- What an instruction writes has no bit at VL or above that the old destination did not have (R131, R140, R150). -/
theorem getLsbD_combineOf_of_vl_le {i : Instr} (s : State) {old : VReg} (a b : VReg) {j : Nat} (hj : i.form.vl ≤ j)
    (ho : old.getLsbD j = false) : (combineOf s i old a b).getLsbD j = false := by
  cases i with
  | xorps e => rw [getLsbD_combineOf_sse rfl _ _ _ _ hj, ho]
  | vxorpsVex128C5 e | vxorpsVex128C4 e | vxorpsVex256C5 e | vxorpsVex256C4 e =>
    rw [combineOf_vex rfl, getLsbD_vexXor, decide_eq_false (Nat.not_lt.2 hj), Bool.false_and]
  | vxorpsEvex128 e | vxorpsEvex256 e | vxorpsEvex512 e =>
    rw [form_vl_eq] at hj
    rw [combineOf_evex rfl, evexXor, getLsbD_ofLanes _ _ (form_kl_le _), decide_eq_false (Nat.not_lt.2 hj), Bool.false_and]

/-- A completed instruction keeps the invariant: its one register exists and stays within MAXVL, and its next pc is canonical. -/
theorem exec_next_inv {i : Instr} {s t : State} (hs : s.Inv) (h : exec i s = .next t) : t.Inv := by
  have hpc := exec_next_pc h
  obtain ⟨hrun, l, -, rfl⟩ := exec_eq_next.1 h
  obtain ⟨hv, -, ha, -⟩ := State.ready_iff.1 hrun.ready
  refine ⟨hs.config, fun n => ?_, fun n hn => ?_, hs.opmasks, ?_, hs.memory⟩
  · rw [State.completed_zreg]
    split
    · refine shiftRight_eq_zero fun j hj => ?_
      exact getLsbD_combineOf_of_vl_le s _ _ ((vl_le_maxvl hv ha).trans hj)
        (getLsbD_of_shiftRight_eq_zero (hs.widths _) hj)
    · exact hs.widths n
  · have hd : n ≠ (operandsOf i).dest := by
      rintro rfl
      exact absurd (operandsOf_namesBelow_nvec hv ha).1 (Nat.not_lt.2 hn)
    rw [State.completed_zreg, if_neg hd]
    exact hs.count n hn
  · rw [hpc]
    exact hrun.nextPc

/-- Settles O49: a step that answers a next state ran an instruction. -/
theorem stepKeepsInvariant : Obligations.StepKeepsInvariant := by
  intro s t hs h
  obtain ⟨-, -, -, i, rest, -, hexec⟩ := step_eq_next h
  exact exec_next_inv hs hexec

end Sys2Proof.Machine
end

section
/-! The bytes of an instruction: how many they are, and which row of the opcode table they match (R102, R109). -/

namespace Sys2Proof

theorem length_encode (i : Instr) : (encode i).length = i.len :=
  match i with
  | .xorps e          => (Laws.EncodedLength.xorps e).1
  | .vxorpsVex128C5 e => (Laws.EncodedLength.vxorpsVex128C5 e).1
  | .vxorpsVex128C4 e => (Laws.EncodedLength.vxorpsVex128C4 e).1
  | .vxorpsVex256C5 e => (Laws.EncodedLength.vxorpsVex256C5 e).1
  | .vxorpsVex256C4 e => (Laws.EncodedLength.vxorpsVex256C4 e).1
  | .vxorpsEvex128 e  => (Laws.EncodedLength.vxorpsEvex128 e).1
  | .vxorpsEvex256 e  => (Laws.EncodedLength.vxorpsEvex256 e).1
  | .vxorpsEvex512 e  => (Laws.EncodedLength.vxorpsEvex512 e).1

/-- Settles O5: the bytes are the instruction's own and the rest, so the decoder consumes the instruction's length. -/
theorem decodedLengthBounds : Obligations.DecodedLengthBounds := by
  intro bs rest i h
  obtain ⟨-, rfl⟩ := encodeInvertsDecode bs rest i h
  exact ⟨by rw [List.length_append, length_encode], i.three_le_len, len_le_of_decode h⟩

/-- A row is compared from the first byte that is no prefix (R109). -/
theorem matchesBytes_map (r : OpcodeRow) (pre : List Prefix) {tail : List Byte} (hn : noPrefixFirst tail) :
    r.matchesBytes (pre.map Prefix.toByte ++ tail) = matchesMask r.pattern r.mask tail := by
  rw [OpcodeRow.matchesBytes, scanPrefixes_map pre hn]

/-- The ModRM byte, which no row's mask looks at (R82, R109). -/
theorem RM.bytes_eq_cons (rm : RM) (g : BitVec 3) : ∃ b bs, rm.bytes g = b :: bs := by
  rcases rm with n | ⟨n, d⟩ | d | ⟨sc, ix, n, d⟩ | ⟨sc, ix, d⟩ <;> exact ⟨_, _, rfl⟩

/-- The bits of VEX.L and pp in the last byte of a VEX prefix (R89, R91). -/
theorem vexByte_and (c : BitVec 1) (v : BitVec 4) (l : Bool) :
    (c ++ v ++ bit1 l ++ 0#2 : Byte) &&& 7#8 = if l then 0x04 else 0x00 := by
  revert c v l; decide

theorem vex3Byte_and (r x b : BitVec 1) : (r ++ x ++ b ++ 1#5 : Byte) &&& 31#8 = 1#8 := by
  revert r x b; decide

theorem evexP0_and (r x b r2 : BitVec 1) : (r ++ x ++ b ++ r2 ++ 1#4 : Byte) &&& 15#8 = 1#8 := by
  revert r x b r2; decide

theorem evexP1_and (v : BitVec 4) : (bit1 false ++ v ++ 4#3 : Byte) &&& 135#8 = 4#8 := by
  revert v; decide

/-- The bits of L'L in P2 (R93, R94). -/
theorem evexP2_and (z bc v2 : BitVec 1) (ll : BitVec 2) (aaa : BitVec 3) :
    (z ++ ll ++ bc ++ v2 ++ aaa : Byte) &&& 96#8 = 0#1 ++ ll ++ 0#5 := by
  revert z ll bc v2 aaa; decide

/-- The bytes match `i`'s row of the opcode table and no other. -/
def MatchesOnlyRowOf (bs : List Byte) (i : Instr) : Prop :=
  ∀ r ∈ opcodeRows, r.matchesBytes bs = true ↔ r.mnemonic = i.mnemonic

theorem matchesOnlyRowOf_map {pre : List Prefix} {tail : List Byte} {i : Instr} (hn : noPrefixFirst tail)
    (h : ∀ r ∈ opcodeRows, matchesMask r.pattern r.mask tail = true ↔ r.mnemonic = i.mnemonic) :
    MatchesOnlyRowOf (pre.map Prefix.toByte ++ tail) i := by
  intro r hr
  rw [matchesBytes_map r pre hn]
  exact h r hr

theorem legacyBytes_match (e : Legacy) (rest : List Byte) : MatchesOnlyRowOf (e.bytes ++ rest) (.xorps e) := by
  obtain ⟨b, bs, hb⟩ := e.rm.bytes_eq_cons e.reg
  rw [Legacy.bytes, hb, List.append_assoc]
  refine matchesOnlyRowOf_map (show Prefix.ofByte 0x0F = none by decide) ?_
  simp [opcodeRows, matchesMask, Instr.mnemonic]

theorem vex2Bytes_match (l : Bool) (e : Vex2) (rest : List Byte) :
    MatchesOnlyRowOf (e.bytes l ++ rest) (vex2Instr l e) := by
  obtain ⟨b, bs, hb⟩ := e.rm.bytes_eq_cons e.reg
  rw [Vex2.bytes, hb, List.append_assoc]
  refine matchesOnlyRowOf_map (show Prefix.ofByte 0xC5 = none by decide) ?_
  cases l <;> simp [opcodeRows, matchesMask, vexByte_and, vex2Instr, Instr.mnemonic]

theorem vex3Bytes_match (l : Bool) (e : Vex3) (rest : List Byte) :
    MatchesOnlyRowOf (e.bytes l ++ rest) (vex3Instr l e) := by
  obtain ⟨b, bs, hb⟩ := e.rm.bytes_eq_cons e.reg
  rw [Vex3.bytes, hb, List.append_assoc]
  refine matchesOnlyRowOf_map (show Prefix.ofByte 0xC4 = none by decide) ?_
  cases l <;> simp [opcodeRows, matchesMask, vex3Byte_and, vexByte_and, vex3Instr, Instr.mnemonic]

theorem evexBytes_match {ll : BitVec 2} (hll : ll ≠ 3) (e : Evex) (rest : List Byte) :
    MatchesOnlyRowOf (e.bytes ll ++ rest) (evexInstr ll e) := by
  obtain ⟨b, bs, hb⟩ := e.rm.bytes_eq_cons e.reg
  rw [Evex.bytes, hb, List.append_assoc]
  refine matchesOnlyRowOf_map (show Prefix.ofByte 0x62 = none by decide) ?_
  obtain rfl | rfl | rfl := vectorLength_cases hll <;>
    simp [opcodeRows, matchesMask, evexP0_and, evexP1_and, evexP2_and, evexInstr, Instr.mnemonic]

/-- Settles O4: the rows' masked bytes tell the classes and the vector lengths apart. -/
theorem exactlyItsRowMatches : Obligations.ExactlyItsRowMatches := by
  intro i rest _
  cases i with
  | xorps e          => exact legacyBytes_match e rest
  | vxorpsVex128C5 e => exact vex2Bytes_match false e rest
  | vxorpsVex128C4 e => exact vex3Bytes_match false e rest
  | vxorpsVex256C5 e => exact vex2Bytes_match true e rest
  | vxorpsVex256C4 e => exact vex3Bytes_match true e rest
  | vxorpsEvex128 e  => exact evexBytes_match (ll := 0) (by decide) e rest
  | vxorpsEvex256 e  => exact evexBytes_match (ll := 1) (by decide) e rest
  | vxorpsEvex512 e  => exact evexBytes_match (ll := 2) (by decide) e rest

end Sys2Proof
end

section
/-! Listed bytes decoded: each is the encoding of the instruction it is said to spell. -/

namespace Sys2Proof

theorem decode_of_encode_eq {i : Instr} {bs : List Byte} (hw : i.wellFormed = true) (h : encode i = bs) :
    decode bs = .ok (i, []) := by
  rw [← h, ← (encode i).append_nil]
  exact decodeInvertsEncode i [] hw

/-- Settles O1: the listed bytes are the instructions' encodings. -/
theorem listedBytesDecode : Obligations.ListedBytesDecode :=
  ⟨decode_of_encode_eq (by decide) (by decide), decode_of_encode_eq (by decide) (by decide),
    decode_of_encode_eq (by decide) (by decide), decode_of_encode_eq (by decide) (by decide),
    decode_of_encode_eq (by decide) (by decide), decode_of_encode_eq (by decide) (by decide),
    decode_of_encode_eq (by decide) (by decide), decode_of_encode_eq (by decide) (by decide)⟩

/-- Any one of the prefixes but 66, F2 and F3 may stand before form 1 (R86, R87). -/
theorem wellFormed_xorps_of_prefix {p : Prefix} (hp : p.isMandatory = false) :
    (Instr.xorps ⟨[p], 1, .reg 0⟩).wellFormed = true := by
  cases p with
  | seg g => rfl
  | rex w => rfl
  | _ => revert hp; decide

theorem decode_prefix_xorps {p : Prefix} (hp : p.isMandatory = false) :
    decode [p.toByte, 0x0F, 0x57, 0xC8] = .ok (.xorps ⟨[p], 1, .reg 0⟩, []) :=
  decode_of_encode_eq (wellFormed_xorps_of_prefix hp) (by simp [encode, Legacy.bytes, RM.bytes, modrmByte])

/-- Settles O51: the listed bytes are those of the listed prefixes, and none is 66, F2 or F3. -/
theorem prefixBytesRead : Obligations.PrefixBytesRead := by
  refine ⟨fun q hq => ?_, fun w => decode_prefix_xorps (p := .rex w) rfl⟩
  have hbyte : q.1 = q.2.toByte ∧ q.2.isMandatory = false := by
    revert q
    decide
  rw [hbyte.1]
  exact decode_prefix_xorps hbyte.2

end Sys2Proof
end

section
/-! Bytes behind accepted prefixes that are no instruction of the model (R87, R91, R94, R97). -/

namespace Sys2Proof.Machine

/-- Prefixes that R86 does not refuse and a class that is rejected make bytes of no instruction. -/
theorem noInstruction_of_decodeClass {pre : List Prefix} {c : Byte} {tail : List Byte} {why : Reject}
    {out : State → Host.Outcome State Fault Refusal} (hp : prefixesWellFormed pre = true) (hc : Prefix.ofByte c = none)
    (hd : ∀ rest, decodeClass pre (c :: (tail ++ rest)) = .error why) (ho : ∀ s w, (s.rejected why w).outcome = out s) :
    NoInstruction (pre.map Prefix.toByte ++ c :: tail) why out := by
  refine noInstruction_of (by simp) (fun rest => ?_) ho
  rw [List.append_assoc, List.cons_append, decode_map hp (show noPrefixFirst (c :: _) from hc), hd]

/-- 66, F2 or F3 among the prefixes of `0F 57` makes it another instruction (R87). -/
theorem decodeLegacy_mandatory {pre : List Prefix} {rm : RM} (g : BitVec 3) (hw : rm.wellFormed = true)
    (hm : pre.any Prefix.isMandatory = true) (rest : List Byte) :
    decodeLegacy pre (0x57 :: (rm.bytes g ++ rest)) = .error .notXorps := by
  simp [decodeLegacy, parseRM_bytes g rm hw, hm]

theorem isMandatory_of_ofByte {b : Byte} {p : Prefix} (hb : b = 0x66 ∨ b = 0xF2 ∨ b = 0xF3)
    (hp : Prefix.ofByte b = some p) : p.isMandatory = true := by
  obtain rfl | rfl | rfl := hb <;> cases hp <;> rfl

theorem otherVex_of_all {ps : List Prefix} (h : ∀ p ∈ ps, p = .addrSize ∨ ∃ sg, p = .seg sg) :
    otherVex ps = .notVxorps := by
  refine if_pos (List.all_eq_true.2 fun p hp => ?_)
  obtain rfl | ⟨sg, rfl⟩ := h p hp <;> rfl

/-- pp other than 00b in the two-byte spelling (R89, R91). -/
theorem decodeVex2_other {pre : List Prefix} {rm : RM} (g : BitVec 3) {v1 : Byte} (hw : rm.wellFormed = true)
    (hother : v1.extractLsb' 0 2 ≠ 0) (rest : List Byte) :
    decodeVex2 pre (v1 :: 0x57 :: (rm.bytes g ++ rest)) = .error (otherVex pre) := by
  simp only [decodeVex2, parseRM_bytes g rm hw]
  rw [if_neg (not_not.2 rfl), if_pos hother]

/-- pp other than 00b, or a map other than 0F, in the three-byte spelling (R90, R91). -/
theorem decodeVex3_other {pre : List Prefix} {rm : RM} (g : BitVec 3) {v1 v2 : Byte} (hw : rm.wellFormed = true)
    (hother : v2.extractLsb' 0 2 ≠ 0 ∨ v1.extractLsb' 0 5 ≠ 1) (rest : List Byte) :
    decodeVex3 pre (v1 :: v2 :: 0x57 :: (rm.bytes g ++ rest)) = .error (otherVex pre) := by
  simp only [decodeVex3, parseRM_bytes g rm hw]
  rw [if_neg (not_not.2 rfl), if_pos hother]

/-- pp other than 00b, or a map other than 0F, in EVEX with the fixed bits right (R93, R94). -/
theorem decodeEvex_other {pre : List Prefix} {rm : RM} (g : BitVec 3) {p0 p1 p2 : Byte} (hw : rm.wellFormed = true)
    (h3 : p0.getLsbD 3 = false) (h2 : p1.getLsbD 2 = true)
    (hother : p1.extractLsb' 0 2 ≠ 0 ∨ p0.extractLsb' 0 3 ≠ 1) (rest : List Byte) :
    decodeEvex pre (p0 :: p1 :: p2 :: 0x57 :: (rm.bytes g ++ rest)) = .error (otherVex pre) := by
  have hfixed : ¬ (p0.getLsbD 3 = true ∨ p1.getLsbD 2 = false) := by simp only [h3, h2]; decide
  simp only [decodeEvex, parseRM_bytes g rm hw]
  rw [if_neg (not_not.2 rfl), if_neg hfixed, if_pos hother]

/-- Settles O8: each class's own check rejects the bytes, and behind segment overrides and 67 it refuses them. -/
theorem otherInstructionsRefused : Obligations.OtherInstructionsRefused := by
  intro ps rm g hw
  refine ⟨fun b p qs hb hp hpre => ?_, fun hps hall => ?_⟩
  · have hmap : qs.map Prefix.toByte ++ b :: ps.map Prefix.toByte = (qs ++ p :: ps).map Prefix.toByte := by
      simp [Prefix.toByte_of_ofByte b p hp]
    have hm : (qs ++ p :: ps).any Prefix.isMandatory = true := by simp [isMandatory_of_ofByte hb hp]
    rw [hmap]
    exact noInstruction_of_decodeClass hpre (by decide) (decodeLegacy_mandatory g hw hm) fun _ _ => rfl
  · rw [← otherVex_of_all hall]
    have hout : ∀ (s : State) (w : FetchEnd), (s.rejected (otherVex ps) w).outcome = .refused .notVxorps :=
      fun _ _ => by rw [otherVex_of_all hall]; rfl
    exact ⟨fun v1 h => noInstruction_of_decodeClass hps (by decide) (decodeVex2_other g hw h) hout,
      fun v1 v2 h => noInstruction_of_decodeClass hps (by decide) (decodeVex3_other g hw h) hout,
      fun p0 p1 p2 h3 h2 h => noInstruction_of_decodeClass hps (by decide) (decodeEvex_other g hw h3 h2 h) hout⟩

/-- Wrong fixed bits, W = 1 or L'L = 11b in EVEX bytes of map 0F with pp = 00b (R93, R94, R97). -/
theorem decodeEvex_reserved (pre : List Prefix) {rm : RM} (g : BitVec 3) {p0 p1 p2 : Byte} (hw : rm.wellFormed = true)
    (hmap : p0.extractLsb' 0 3 = 1) (hpp : p1.extractLsb' 0 2 = 0)
    (h : p0.getLsbD 3 = true ∨ p1.getLsbD 2 = false ∨ p1.getLsbD 7 = true ∨ p2.extractLsb' 5 2 = 3) (rest : List Byte) :
    decodeEvex pre (p0 :: p1 :: p2 :: 0x57 :: (rm.bytes g ++ rest)) = .error .invalidOpcode := by
  have hself : ¬ (p1.extractLsb' 0 2 ≠ 0 ∨ p0.extractLsb' 0 3 ≠ 1) := by tauto
  simp only [decodeEvex, parseRM_bytes g rm hw]
  rw [if_neg (not_not.2 rfl)]
  by_cases hfixed : p0.getLsbD 3 = true ∨ p1.getLsbD 2 = false
  · rw [if_pos hfixed]
  · rw [if_neg hfixed, if_neg hself]
    by_cases hW : p1.getLsbD 7 = true
    · rw [if_pos hW]
    · have hll : p2.extractLsb' 5 2 = 3 := by tauto
      rw [if_neg hW, hll]
      rfl

/-- Settles O9: the EVEX class rejects the bytes, and a step raises #UD for that rejection. -/
theorem evexReservedBitsRaiseInvalidOpcode : Obligations.EvexReservedBitsRaiseInvalidOpcode :=
  fun ps _ g _ _ _ hps hw hmap hpp h =>
    noInstruction_of_decodeClass hps (by decide) (decodeEvex_reserved ps g hw hmap hpp h) fun _ _ => rfl

end Sys2Proof.Machine
end

section
/-! The step before the instruction's meaning: the recorded fault, the mode, the end of the run, and the fetch (R59, R64,
R102, R181, R183, R206). -/

namespace Sys2Proof.Machine

theorem step_of_fault {s : State} {r : Fault} (h : s.fault = some r) : step s = .fault r := by
  simp [step, h]

theorem State.recordFault_recordFault (s : State) (r : Fault) : (s.recordFault r).recordFault r = s.recordFault r := by
  obtain ⟨e, pc⟩ := r
  cases e <;> rfl

/-- Settles O15: a step answers the recorded fault before anything else, and recording it again changes nothing. -/
theorem recordedFaultEndsRun : Obligations.RecordedFaultEndsRun := by
  intro s r
  have hstep : step (s.recordFault r) = .fault r := step_of_fault (s.recordFault_fault r)
  exact ⟨hstep, by rw [hstep]; exact s.recordFault_recordFault r⟩

/-- Settles O16: the two checks of the step between the recorded fault and the fetch. -/
theorem otherModesAndEndOfRunStop : Obligations.OtherModesAndEndOfRunStop := by
  refine ⟨fun s hf hm => ?_, fun s hm hfinal => ?_⟩
  · simp [step, hf, hm]
  · obtain ⟨hend, hf⟩ := hfinal
    simp [step, hf, hm, hend]

/-- Settles O13: the fetch begins with the instruction's bytes, and those decode to it. -/
theorem stepRunsDecodedInstruction : Obligations.StepRunsDecodedInstruction := by
  intro s i hw hf hm hbytes
  have hlen : (encode i).length ≤ maxLen := by
    rw [length_encode]
    exact (Instr.wellFormed_iff.1 hw).2
  have hfetches : s.fetches (encode i) := by
    intro j hj
    rw [length_encode] at hj
    obtain ⟨hr, hc, ht, hb⟩ := hbytes j hj
    exact ⟨⟨hr, hc, ht⟩, hb⟩
  have hne : encode i ≠ [] := List.ne_nil_of_length_pos (by have := i.three_le_len; rw [length_encode]; omega)
  rw [step_of_inRange hf hm (State.inRange_of_fetches hfetches hne), State.fetch_of_fetches hfetches hlen,
    decodeInvertsEncode i _ hw]

/-- When the fetch gives the first bytes of an instruction only, the step ends as the fetch did (R102, R181). -/
theorem step_of_truncated {s : State} {i : Instr} {k : Nat} {why : FetchEnd} (hw : i.fieldsWellFormed = true)
    (hf : s.fault = none) (hm : s.mode = .mode64) (hr : inRange s.pc.toNat s.code.base s.code.size = true)
    (hk : k < i.len) (hfetch : s.fetch = ((encode i).take k, why)) :
    step s = (s.rejected .truncated why).outcome := by
  rw [step_of_inRange hf hm hr, hfetch, decode_encode_take hw hk]

theorem length_take_encode {i : Instr} {k : Nat} (hk : k < i.len) : ((encode i).take k).length = k := by
  rw [List.length_take, length_encode, Nat.min_eq_left hk.le]

/-- A fault of the fetch of an instruction's byte `k` is the step's, when the bytes before it can be fetched (R181 step 1). -/
theorem step_of_fetchFault {s : State} {i : Instr} {k : Nat} {x : Exc} (hw : i.fieldsWellFormed = true)
    (hf : s.fault = none) (hm : s.mode = .mode64) (hk : k < i.len) (h15 : k < 15) (hfetches : s.fetches ((encode i).take k))
    (hr : inRange (s.pc.toNat + k) s.code.base s.code.size = true) (hx : s.fetchFault (s.pc.toNat + k) = some x) :
    step s = .fault (.exception x s.pc) := by
  have hlen := length_take_encode hk
  have hpc : inRange s.pc.toNat s.code.base s.code.size = true := by
    cases k with
    | zero => simpa using hr
    | succ k => exact State.inRange_of_fetches hfetches (List.ne_nil_of_length_pos (by omega))
  have hfetch : s.fetch = ((encode i).take k, .faulting x) := by
    obtain ⟨n, hn⟩ : ∃ n, maxLen - k = n + 1 := ⟨14 - k, by unfold maxLen; omega⟩
    rw [State.fetch_of_fetches hfetches (by unfold maxLen; omega), hlen, hn, State.fetchBytes_fault hr hx, List.append_nil]
  exact step_of_truncated hw hf hm hpc hk hfetch

/-- The fetch of a byte whose address is not canonical is #GP(0) (R59, R181). -/
theorem State.fetchFault_of_nonCanonical {s : State} {a : Nat} (h : nonCanonical s.cfg.va.bits a) :
    s.fetchFault a = some .gp := by
  rw [← canonical_eq_false] at h
  simp [State.fetchFault, h]

/-- The fetch of a canonical byte raises what the oracle answers (R59, R181). -/
theorem State.fetchFault_of_translate {s : State} {a : Nat} {x : XlatEntry} (hc : canonical s.cfg.va.bits a = true)
    (ht : s.translate a 1 .fetch = some x) : s.fetchFault a = some (x.exc a .gp) := by
  simp [State.fetchFault, hc, ht]

/-- A range that answers `acc` and shares a byte with the access (R59). -/
theorem XlatEntry.touches_iff {x : XlatEntry} {a n : Nat} {acc : Access} :
    x.touches a n acc = true ↔ x.access = acc ∧ 0 < x.size ∧ x.base < a + n ∧ a < x.base + x.size := by
  simp [XlatEntry.touches]

/-- An address that is canonical is a 64-bit number (R59). -/
theorem lt_of_canonical {va : VaWidth} {a : Nat} (h : canonical va.bits a = true) : a < 2 ^ 64 := by
  have hn : ¬ nonCanonical va.bits a := by
    rw [← canonical_eq_false, h]
    exact Bool.noConfusion
  unfold nonCanonical at hn
  omega

/-- Bytes of an instruction beyond the fifteenth are never fetched, and the fifteen before them are #GP(0) (R102). -/
theorem step_of_tooLong {s : State} {i : Instr} (hw : i.fieldsWellFormed = true) (hf : s.fault = none)
    (hm : s.mode = .mode64) (hk : 15 < i.len) (hfetches : s.fetches ((encode i).take 15)) :
    step s = .fault (.exception .gp s.pc) := by
  have hlen := length_take_encode hk
  have hfetch : s.fetch = ((encode i).take 15, .full) := by
    rw [State.fetch_of_fetches hfetches hlen.le, hlen]
    simp [maxLen, State.fetchBytes]
  exact step_of_truncated hw hf hm (State.inRange_of_fetches hfetches (List.ne_nil_of_length_pos (by omega))) hk hfetch

/-- Settles O14: a fault of the fetch of byte `k` is the step's, whatever raised it. -/
theorem fetchFaultsComeFirst : Obligations.FetchFaultsComeFirst := by
  intro s i hw hf hm
  refine ⟨fun k hk h15 hfetches hr => ?_, fun hlen hfetches => step_of_tooLong hw hf hm hlen hfetches⟩
  have raises {x : Exc} (hx : s.fetchFault (s.pc.toNat + k) = some x) : step s = .fault (.exception x s.pc) :=
    step_of_fetchFault hw hf hm hk h15 hfetches hr hx
  refine ⟨fun hn => raises (State.fetchFault_of_nonCanonical hn), fun x hc ht => ?_⟩
  have hx := State.fetchFault_of_translate hc ht
  obtain ⟨-, htouch⟩ := s.translate_eq_some _ _ _ ht
  obtain ⟨hacc, -, hbase, -⟩ := XlatEntry.touches_iff.1 htouch
  refine ⟨fun ha => raises (by simpa [XlatEntry.exc, ha] using hx), fun p u r up ha => ?_⟩
  rw [XlatEntry.exc, ha] at hx
  obtain ⟨h0, h1, h2, h3, h4, h5⟩ := pfCode_bits x.access p u r up
  refine ⟨_, _, raises hx, ?_, h0, h1, h2, h3, by rw [h4, hacc]; rfl, h5⟩
  rw [BitVec.toNat_ofNat, Nat.max_eq_left (by omega), Nat.mod_eq_of_lt (lt_of_canonical hc)]

end Sys2Proof.Machine
end

section
/-! Register numbers and the scale of an 8-bit displacement (R82 to R100). -/

namespace Sys2Proof.Machine

theorem memRef_indexIs (x : Bool) (ix : BitVec 3) (sc : BitVec 2) (base : BaseReg) (disp : Word) :
    (MemRef.mk base (indexReg x ix sc) disp).indexIs x ix sc := by
  have hnum : 8 * x.toNat + ix.toNat = 4 ↔ num4 x ix = 4 := by
    rw [← toNat_num4, ← BitVec.toNat_inj]
    rfl
  unfold MemRef.indexIs indexReg
  by_cases h : num4 x ix = 4
  · rw [if_pos (hnum.2 h), if_pos h]
  · rw [if_neg (mt hnum.1 h), if_neg h]
    exact ⟨_, rfl, toNat_num4 x ix⟩

/-- The registers of a memory operand are numbered from the extension bits it is formed with (R88, R98, R99). -/
theorem memoryIs_of_src2 {o : Operands} {x b : Bool} {n : Nat} {a : AddrForm} (h : o.src2 = .mem (memRef x b n a)) :
    o.memoryIs x b a := by
  cases a with
  | base r d => exact ⟨_, h, ⟨_, rfl, toNat_num4 b r⟩, rfl⟩
  | ripRel d => exact ⟨_, h, rfl, rfl⟩
  | sib sc ix r d => exact ⟨_, h, ⟨_, rfl, toNat_num4 b r⟩, memRef_indexIs x ix sc _ _⟩
  | sibAbs sc ix d => exact ⟨_, h, rfl, memRef_indexIs x ix sc _ _⟩

/-- The r/m operand: a register numbered by the class's own rule, or memory with the class's extension bits. -/
theorem src2_cases {o : Operands} {regNum : BitVec 3 → BitVec 5} {x b : Bool} {n : Nat} {rm : RM}
    (h : o.src2 = src2Of regNum x b n rm) :
    (∀ k, rm = .reg k → ∃ r, o.src2 = .reg r ∧ r.toNat = (regNum k).toNat) ∧ ∀ a, rm = .mem a → o.memoryIs x b a := by
  refine ⟨fun k hk => ?_, fun a ha => ?_⟩
  · rw [hk] at h
    exact ⟨_, h, rfl⟩
  · rw [ha] at h
    exact memoryIs_of_src2 h

theorem toNat_num5_false (e : Bool) (n : BitVec 3) : (num5 false e n).toNat = 8 * e.toNat + n.toNat := by
  rw [toNat_num5, Bool.toNat_false, Nat.mul_zero, Nat.zero_add]

/-- The register numbers of form 1, by the REX byte that counts (R83, R88). -/
theorem legacyOperands_numbers (e : Legacy) {w : BitVec 4} (hw : liveRex e.pre = w) :
    (legacyOperands e).dest.toNat = 8 * (w.getLsbD 2).toNat + e.reg.toNat ∧
    (legacyOperands e).src1 = (legacyOperands e).dest ∧
    (∀ n, e.rm = .reg n → ∃ r, (legacyOperands e).src2 = .reg r ∧ r.toNat = 8 * (w.getLsbD 0).toNat + n.toNat) ∧
    ∀ a, e.rm = .mem a → (legacyOperands e).memoryIs (w.getLsbD 1) (w.getLsbD 0) a := by
  subst hw
  obtain ⟨hreg, hmem⟩ := src2_cases (o := legacyOperands e) rfl
  simp only [toNat_num5_false] at hreg
  exact ⟨toNat_num5_false _ _, rfl, hreg, hmem⟩

/-- A REX byte counts when it comes last among the prefixes (R88). -/
theorem liveRex_append_rex (ps : List Prefix) (w : BitVec 4) : liveRex (ps ++ [.rex w]) = w := by
  simp [liveRex]

theorem liveRex_of_not_rex {pre : List Prefix} (h : ∀ (ps : List Prefix) (w : BitVec 4), pre ≠ ps ++ [.rex w]) :
    liveRex pre = 0 := by
  unfold liveRex
  split
  · rename_i w hl
    obtain ⟨ps, hps⟩ := List.getLast?_eq_some_iff.1 hl
    exact absurd hps (h ps w)
  · rfl

/-- Settles O6: class by class, from the numbers' bits. -/
theorem operandNumbersAssembled : Obligations.OperandNumbersAssembled := by
  refine ⟨toNat_num4, fun e ps w hpre => ?_, fun e hpre => ?_, fun e => ?_, fun e => ?_, fun f e => ?_⟩
  · exact legacyOperands_numbers e (by rw [hpre, liveRex_append_rex])
  · simpa using legacyOperands_numbers e (liveRex_of_not_rex hpre)
  · obtain ⟨hreg, hmem⟩ := src2_cases (o := vex2Operands e) rfl
    simp only [toNat_num5_false, Bool.toNat_false, Nat.mul_zero, Nat.zero_add] at hreg
    exact ⟨toNat_num5_false _ _, by simp [vex2Operands, toNat_bit1_append], hreg, hmem⟩
  · obtain ⟨hreg, hmem⟩ := src2_cases (o := vex3Operands e) rfl
    simp only [toNat_num5_false] at hreg
    exact ⟨toNat_num5_false _ _, by simp [vex3Operands, toNat_bit1_append], hreg, hmem⟩
  · obtain ⟨hreg, hmem⟩ := src2_cases (o := evexOperands f e) rfl
    simp only [toNat_num5] at hreg
    exact ⟨toNat_num5 _ _ _, toNat_bit1_append _ _, hreg, hmem⟩

/-- The scale of an 8-bit displacement under EVEX: 4 under EVEX.b, else the vector length in bytes (R100). -/
theorem evexOperands_src2 (f : Form) {e : Evex} {a : AddrForm} (h : e.rm = .mem a) :
    (evexOperands f e).src2 = .mem (memRef e.x e.b (if e.bc then 4 else f.vl / 8) a) := by
  simp only [evexOperands, h, src2Of, operandSize]

/-- Settles O11: the scale of each EVEX form is its operand's size, and the other classes form the operand with scale 1. -/
theorem disp8ScaleByTuple : Obligations.Disp8ScaleByTuple :=
  ⟨fun _ _ h => ⟨evexOperands_src2 .evex128 h, evexOperands_src2 .evex256 h, evexOperands_src2 .evex512 h⟩,
    fun _ _ h => by simp only [vex2Operands, h, src2Of], fun _ _ h => by simp only [vex3Operands, h, src2Of],
    fun _ _ h => by simp only [legacyOperands, h, src2Of]⟩

end Sys2Proof.Machine
end

section
/-! The effective and the linear address (R98 to R100, R103). -/

namespace Sys2Proof.Machine

/-- An effective address whose 64-bit sum is that of an integer is that integer modulo 2^A (R99). -/
theorem State.toNat_ea_of_sum {s : State} {o : Operands} {m : MemRef} {z : Int}
    (h : s.baseValue o.len m.base + s.indexValue m.index + m.disp = BitVec.ofInt 64 z) :
    ((s.ea o m).toNat : Int) = z % 2 ^ addrWidth o := by
  unfold State.ea addrWidth
  simp only [h]
  split
  · rw [BitVec.toNat_setWidth, BitVec.toNat_setWidth, BitVec.toNat_ofInt]
    omega
  · rw [BitVec.toNat_ofInt]
    omega

theorem word_eq_ofInt (w : Word) : w = BitVec.ofInt 64 w.toNat := by simp

theorem dispValue_eq_ofInt (n : Nat) (d : Disp) : dispValue n d = BitVec.ofInt 64 (dispInt n d) := by
  cases d with
  | absent => rfl
  | d8 d => rw [dispValue, dispInt, BitVec.ofInt_mul, BitVec.ofInt_natCast]; rfl
  | d32 d => rfl

theorem shiftLeft_eq_ofInt (w : Word) (k : Nat) : w <<< k = BitVec.ofInt 64 (w.toNat * 2 ^ k) := by
  have hcast : (w.toNat : Int) * 2 ^ k = (w.toNat * 2 ^ k : Nat) := by push_cast; rfl
  rw [hcast, BitVec.ofInt_natCast]
  apply BitVec.eq_of_toNat_eq
  rw [BitVec.toNat_shiftLeft, Nat.shiftLeft_eq, BitVec.toNat_ofNat]

/-- The scaled index as a 64-bit word (R98, R99). -/
theorem State.indexValue_eq_ofInt (s : State) (x : Bool) (ix : BitVec 3) (sc : BitVec 2) :
    s.indexValue (indexReg x ix sc) = BitVec.ofInt 64 (s.indexInt x ix sc) := by
  unfold indexReg State.indexInt
  split
  · rfl
  · exact shiftLeft_eq_ofInt _ _

theorem addrWidth_operandsOf (i : Instr) :
    addrWidth (operandsOf i) = if .addrSize ∈ prefixesOf i then 32 else 64 := by
  simp only [addrWidth, operandsOf_addr32]

/-- Settles O10: each summand is the word of its integer, and so is their sum. -/
theorem effectiveAddressIsIntegerSum : Obligations.EffectiveAddressIsIntegerSum := by
  refine ⟨fun s o x b n _ => ⟨fun r d => ?_, fun d => ?_, fun sc ix r d => ?_, fun sc ix d => ?_⟩,
    fun i => ⟨addrWidth_operandsOf i, operandsOf_len i⟩, toNat_num4⟩
  all_goals
    apply State.toNat_ea_of_sum
    simp only [BitVec.ofInt_add, ← dispValue_eq_ofInt, ← State.indexValue_eq_ofInt, ← word_eq_ofInt]
    simp [memRef, State.baseValue, State.indexValue, BitVec.signExtend]

/-! ## The linear address -/

theorem State.segBase_eq_zero (s : State) {g : Seg} (hf : g ≠ .fs) (hg : g ≠ .gs) : s.segBase g = 0#64 := by
  cases g with
  | fs => exact absurd rfl hf
  | gs => exact absurd rfl hg
  | _ => rfl

theorem operandSeg_of_override {o : Operands} {g : Seg} (h : o.override = some g) (m : MemRef) : operandSeg o m = g := by
  simp only [operandSeg, h]

/-- Only an override makes the operand's segment FS or GS (R103). -/
theorem operandSeg_ne {o : Operands} {m : MemRef} {g : Seg} (h : o.override ≠ some g) (hs : g ≠ .ss) (hd : g ≠ .ds) :
    operandSeg o m ≠ g := by
  unfold operandSeg
  split
  · rename_i g' hg'
    rintro rfl
    exact h hg'
  · unfold defaultSeg
    split
    · split
      · exact hs.symm
      · exact hd.symm
    · exact hd.symm

theorem State.toNat_lin_of_override {s : State} {o : Operands} {g : Seg} (h : o.override = some g) (m : MemRef) :
    (s.lin o m).toNat = ((s.ea o m).toNat + (s.segBase g).toNat) % 2 ^ 64 := by
  rw [State.lin, operandSeg_of_override h, BitVec.toNat_add]

theorem State.lin_eq_ea {s : State} {o : Operands} (hf : o.override ≠ some .fs) (hg : o.override ≠ some .gs) (m : MemRef) :
    s.lin o m = s.ea o m := by
  rw [State.lin, s.segBase_eq_zero (operandSeg_ne hf (by decide) (by decide)) (operandSeg_ne hg (by decide) (by decide)),
    BitVec.add_zero]

/-- The override of a well-formed instruction is the segment override among its prefixes (R86). -/
theorem override_eq_some {i : Instr} (hw : i.wellFormed = true) (g : Seg) :
    (operandsOf i).override = some g ↔ .seg g ∈ prefixesOf i := by
  rw [operandsOf_override, overrideOf_eq_some (hasTwoSegments_of_wellFormed hw)]

/-- Settles O12: by the override, and the override by the prefixes. -/
theorem linearAddressAddsSegmentBase : Obligations.LinearAddressAddsSegmentBase := by
  refine ⟨fun s o m => ⟨fun h => State.toNat_lin_of_override h m, fun h => State.toNat_lin_of_override h m,
    fun hf hg => State.lin_eq_ea hf hg m⟩, fun s i m hw => ?_⟩
  simp only [← override_eq_some hw]
  exact ⟨fun g => trivial, fun h => State.toNat_lin_of_override h m, fun h => State.toNat_lin_of_override h m,
    fun hf hg => congrArg BitVec.toNat (State.lin_eq_ea hf hg m)⟩

end Sys2Proof.Machine
end

section
/-! The checks before the reads: #UD of the EVEX forms, the refusals, and the boot requirements that meet them (R6, R30, R104,
R175, R202). -/

namespace Sys2Proof.Machine

/-- The #UD conditions of an EVEX instruction's own fields (R97, R157, R175). -/
theorem evexIllegal_iff {e : Evex} : evexIllegal e = true ↔
    (∃ p ∈ e.pre, p = .lock ∨ p = .opSize ∨ p = .repne ∨ p = .rep ∨ ∃ w, p = .rex w) ∨ (e.z = true ∧ e.aaa = 0) ∨
      (e.bc = true ∧ ∃ n, e.rm = .reg n) := by
  rw [← vexIllegal_iff, evexIllegal, Bool.or_eq_true, Bool.or_eq_true, or_assoc]
  refine or_congr Iff.rfl (or_congr (by simp) ?_)
  cases e.rm <;> simp

theorem form_of_evexOf {i : Instr} {e : Evex} (h : evexOf i = some e) :
    i.form = .evex128 ∨ i.form = .evex256 ∨ i.form = .evex512 := by
  cases i <;> cases h <;> simp [Instr.form]

/-- The feature flags of forms 4, 5 and 6 (R2, R31). -/
theorem admits_evex_eq_false {i : Instr} {e : Evex} (h : evexOf i = some e) (c : Features) :
    admits c i.form = false ↔
      c.avx512f = false ∨ c.avx512dq = false ∨ (i.form ≠ .evex512 ∧ c.avx512vl = false) := by
  obtain hf | hf | hf := form_of_evexOf h <;> simp only [hf, admits, Bool.and_eq_false_iff] <;> simp <;> tauto

/-- What 64-bit mode asks of the control registers before forms 4, 5 and 6 (R30). -/
theorem usable_evex_eq_false {i : Instr} {e : Evex} {s : State} (h : evexOf i = some e) (hm : s.mode = .mode64) :
    s.usable i.form = false ↔
      s.osxsave = false ∨ ¬ (s.xcr0.getLsbD 1 = true ∧ s.xcr0.getLsbD 2 = true) ∨
        ¬ (s.xcr0.getLsbD 5 = true ∧ s.xcr0.getLsbD 6 = true ∧ s.xcr0.getLsbD 7 = true) := by
  have hr : s.realOrV86 = false := by simp [State.realOrV86, hm]
  have huse : s.usable i.form = (s.osxsave && s.xcr0Avx && s.xcr0Evex) := by
    obtain hf | hf | hf := form_of_evexOf h <;> simp [hf, State.usable, hr]
  rw [huse, Bool.and_eq_false_iff, Bool.and_eq_false_iff, or_assoc, State.xcr0Avx, State.xcr0Evex]
  simp only [← Bool.not_eq_true, Bool.and_eq_true, and_assoc]

/-- Settles O19: the three kinds of #UD condition, for the EVEX class, and the mode check before them. -/
theorem invalidOpcodeEvex : Obligations.InvalidOpcodeEvex := by
  intro i e s he hv
  refine ⟨fun hm => ?_, exec_ud_of_realOrV86 hv ?_⟩
  · rw [exec_eq_ud hv hm, illegalOf_evex he, evexIllegal_iff, admits_evex_eq_false he, usable_evex_eq_false he hm, or_right_comm]
    simp only [or_assoc]
    rfl
  · obtain hf | hf | hf := form_of_evexOf he <;> rw [hf] <;> rfl

theorem exec_refused_of_gate {i : Instr} {s : State} {r : Refusal} (h : s.gate i.form (illegalOf i) = some (.refused r)) :
    exec i s = .refused r := by
  rw [exec_eq_runForm, State.runForm_eq_refused]
  exact .inl h

/-- Settles O22: both refusals are the first checks of an instruction. -/
theorem outsideTheModelRefused : Obligations.OutsideTheModelRefused := by
  refine fun i s => ⟨fun hv => exec_refused_of_gate ?_, fun hv hm => exec_refused_of_gate ?_⟩
  · simp [State.gate, hv]
  · obtain hm | hm := hm <;> simp [State.gate, hv, State.realOrV86, hm]

theorem getLsbD_setBit (v : BitVec 64) {n : Nat} (hn : n < 64) (j : Nat) :
    (setBit v n).getLsbD j = (v.getLsbD j || decide (j = n)) := by
  simp only [setBit, BitVec.getLsbD_or, BitVec.getLsbD_twoPow, hn, decide_true, Bool.true_and, eq_comm]

theorem getLsbD_clearBit (v : BitVec 64) {n j : Nat} (hj : j < 64) :
    (clearBit v n).getLsbD j = (v.getLsbD j && !decide (j = n)) := by
  by_cases h : j = n <;> simp [clearBit, h, BitVec.getLsbD_twoPow, hj]

/-- Settles O23: the boot sets each control bit that some form asks for, and clears CR0.EM and CR0.TS. -/
theorem bootMakesFormsReady : Obligations.BootMakesFormsReady := by
  intro s f hv ha
  have hts : s.boot.ts = false := by
    rw [State.ts, State.boot_cr0, getLsbD_clearBit _ (by decide)]
    simp
  have huse : s.boot.usable f = true := by
    have hreal : s.boot.realOrV86 = false := rfl
    have hem : s.boot.em = false := by
      simp (disch := decide) only [State.em, State.boot_cr0, getLsbD_clearBit]
      simp
    have hcr4 : s.boot.osfxsr = true ∧ s.boot.osxsave = true := by
      simp (disch := decide) only [State.osfxsr, State.osxsave, State.boot_cr4, getLsbD_setBit]
      simp
    have hxcr0 : s.boot.xcr0Avx = true ∧ s.boot.xcr0Evex = true := by
      simp (disch := decide) only [State.xcr0Avx, State.xcr0Evex, State.boot_xcr0, getLsbD_setBit]
      simp
    cases f <;> simp [State.usable, hreal, hem, hcr4, hxcr0]
  rw [State.ready_iff, State.enabled, hts, huse]
  exact ⟨hv, rfl, ha, rfl⟩

end Sys2Proof.Machine
end

section
/-! Faults and refusals of the memory operand, in the order of R181 steps 4 to 7 (R59, R66, R172, R177, R179, R180). -/

namespace Sys2Proof.Machine

/-- The operand's segment is SS by an override, or by default for a base of RSP or RBP (R103, R177). -/
theorem operandSeg_eq_ss (o : Operands) (m : MemRef) :
    operandSeg o m = .ss ↔ o.override = some .ss ∨ (o.override = none ∧ (m.base = .gpr 4 ∨ m.base = .gpr 5)) := by
  unfold operandSeg
  cases o.override with
  | some g => simp
  | none => cases m.base <;> simp [defaultSeg, or_iff_not_imp_left]

/-- A byte that is not canonical is the first check of the operand (R177, R181 step 4). -/
theorem State.operandFault_of_nonCanonical {s : State} {a n : Nat} (f : Form) (g : Seg)
    (h : ∃ j < n, nonCanonical s.cfg.va.bits (a + j)) : s.operandFault f g a n = some (segExc g) := by
  obtain ⟨j, hj, hn⟩ := h
  have hc : canonicalRange s.cfg.va.bits a n = false := by
    rw [← Bool.not_eq_true, canonicalRange_iff]
    exact fun hall => Bool.noConfusion (((canonical_eq_false _ _).2 hn).symm.trans (hall j hj))
  simp [State.operandFault, hc]

/-- Settles O24: the exception is the segment's, and the segment is SS as the statement says. -/
theorem nonCanonicalOperandFaults : Obligations.NonCanonicalOperandFaults := by
  intro i s m hr hl hm h
  rw [exec_eq_operandFault hr hl hm, State.operandFault_of_nonCanonical _ _ h]
  simp only [segExc, operandSeg_eq_ss]

theorem State.acFault_iff {s : State} {f : Form} {a n : Nat} (hf : f ≠ .sse) : s.acFault f a n = true ↔
    s.cr0.getLsbD 18 = true ∧ s.eflags.getLsbD 18 = true ∧ a % n ≠ 0 ∧
      ∃ x ∈ s.cfg.acCheck, x.form = f ∧ x.read = n ∧ x.base ≤ a ∧ a < x.base + x.size := by
  simp [State.acFault, State.am, State.acFlag, hf, acHit, inRange, and_assoc]

/-- #AC comes from the alignment check alone: the oracle answers another exception (R180, R181 step 6). -/
theorem State.operandFault_eq_ac {s : State} {f : Form} {g : Seg} {a n : Nat}
    (hc : canonicalRange s.cfg.va.bits a n = true) (hf : f ≠ .sse) :
    s.operandFault f g a n = some .ac ↔ s.acFault f a n = true := by
  have hxlat : ∀ x : XlatEntry, x.exc a (segExc g) ≠ .ac := by
    intro x
    obtain hx | ⟨code, addr, hx⟩ := x.exc_eq a (segExc g)
    · obtain hg | hg := segExc_eq g <;> rw [hx, hg] <;> simp
    · simp [hx]
  cases hac : s.acFault f a n with
  | true => simp [State.operandFault, hc, hf, hac]
  | false => cases ht : s.translate a n .read <;> simp [State.operandFault, hc, hf, hac, ht, hxlat]

/-- Settles O26: #AC is the operand's alignment check, and the check is the parameter's answer. -/
theorem alignmentCheckByParameter : Obligations.AlignmentCheckByParameter := by
  intro i s m hr hl hm hc hf
  rw [exec_eq_operandFault hr hl hm, State.operandFault_eq_ac hc hf, State.acFault_iff hf]

/-- Past the earlier checks the operand raises the oracle's answer (R179, R181 step 7). -/
theorem State.operandFault_of_translate {s : State} {f : Form} {g : Seg} {a n : Nat} {x : XlatEntry}
    (hc : canonicalRange s.cfg.va.bits a n = true) (ha : f = .sse → a % 16 = 0) (hac : s.acFault f a n = false)
    (ht : s.translate a n .read = some x) : s.operandFault f g a n = some (x.exc a (segExc g)) := by
  have hal : ¬ (f = .sse ∧ a % 16 ≠ 0) := fun h => h.2 (ha h.1)
  simp [State.operandFault, hc, hal, hac, ht]

/-- The oracle answers a fault when a faulting range is touched (R59). -/
theorem State.exists_translate {s : State} {a n : Nat} {acc : Access} (h : ∃ x ∈ s.xlat, x.touches a n acc = true) :
    ∃ x, s.translate a n acc = some x := by
  rw [← Option.ne_none_iff_exists', ne_eq, State.translate_eq_none]
  obtain ⟨x, hx, ht⟩ := h
  intro hall
  simp [hall x hx] at ht

/-- Settles O27: the oracle's answer is a touched range, and CR2's value the higher of the range's and the operand's first
bytes. -/
theorem pageFaultOnOperand : Obligations.PageFaultOnOperand := by
  intro i s m hr hl hm hc ha hac htouched hpage
  obtain ⟨x, hx⟩ := State.exists_translate htouched
  obtain ⟨hmem, ht⟩ := s.translate_eq_some _ _ _ hx
  obtain ⟨p, u, r, up, hans⟩ := hpage x hmem ht
  obtain ⟨hacc, hsize, hbase, hend⟩ := XlatEntry.touches_iff.1 ht
  have hfault := (exec_eq_operandFault hr hl hm _).2 (State.operandFault_of_translate hc ha hac hx)
  simp only [XlatEntry.exc, hans] at hfault
  have hpos := four_le_readSize i
  have haddr : (BitVec.ofNat 64 (max (s.readAddr i m) x.base)).toNat = max (s.readAddr i m) x.base := by
    have hlt := lt_of_canonical ((canonicalRange_iff _ _ _).1 hc (max (s.readAddr i m) x.base - s.readAddr i m) (by omega))
    rw [BitVec.toNat_ofNat, Nat.mod_eq_of_lt (by omega)]
  obtain ⟨h0, h1, h2, h3, h4, h5⟩ := pfCode_bits x.access p u r up
  refine ⟨x, hmem, ht, p, u, r, up, _, _, hans, hfault, h0, h1, h2, h3, by rw [h4, hacc]; rfl, h5, ?_⟩
  rw [haddr]
  omega

/-- Settles O28: a clear operand is read, and a read of a byte not declared is refused. -/
theorem undeclaredMemoryRefused : Obligations.UndeclaredMemoryRefused := by
  intro i s m hr hl hm hclear hun
  have hplain : s.plainBytes (s.readAddr i m) (readSize i) = false := by
    rw [← Bool.not_eq_true, State.plainBytes_iff]
    obtain ⟨j, hj, hnone⟩ := hun
    intro hall
    have hsome := hall j hj
    simp [hnone] at hsome
  rw [exec_eq_runForm, State.runForm_eq_refused, (s.gate_eq_none _ _).2 ⟨hr, hl⟩, State.loadSrc2_mem_refused _ _ _ _ hm]
  exact .inr (.inl ⟨rfl, hclear.operandFault _, hplain, rfl⟩)

/-- Settles O29: a completed instruction read its operand, so no check of it failed. -/
theorem wholeOperandReadable : Obligations.WholeOperandReadable := by
  intro i s t m hm h j hj
  obtain ⟨-, l, hl, -⟩ := exec_eq_next.1 h
  obtain ⟨hfault, bs, d, hread, -⟩ := (State.loadSrc2_mem_ok _ _ _ _ hm _).1 hl
  obtain ⟨(hc : canonicalRange _ (s.readAddr i m) (readSize i) = true), -, -,
    (hxlat : s.translate (s.readAddr i m) (readSize i) .read = none)⟩ := (State.operandFault_eq_none _ _ _ _ _).1 hfault
  refine ⟨?_, fun x hx hacc hin => ?_, ?_⟩
  · rw [← canonical_eq_false, (canonicalRange_iff _ _ _).1 hc j hj]
    exact Bool.noConfusion
  · have htouch : x.touches (s.readAddr i m) (readSize i) .read = true :=
      XlatEntry.touches_iff.2 ⟨hacc, by omega, by omega, by omega⟩
    rw [(s.translate_eq_none _ _ _).1 hxlat x hx] at htouch
    cases htouch
  · have hplain := s.readBytes_isSome (operandSize i.form i.bcast) (s.lin (operandsOf i) m).toNat s.draws
    rw [hread] at hplain
    exact (s.plainBytes_iff _ _).1 hplain.symm j hj

end Sys2Proof.Machine
end

section
/-! A fault is precise, and the refusal of the next pc comes last (R27, R172, R182, R183). -/

namespace Sys2Proof.Machine

/-- Recording a fault writes the record and, for a page fault, CR2 (R172, R183). -/
theorem State.recordFault_eq (s : State) (x : Exc) (pc : Word) :
    ∃ c : Word, s.recordFault (.exception x pc) = { s with fault := some (.exception x pc), cr2 := c } ∧
      (∀ code addr, x = .pf code addr → c = addr) ∧ ((∀ code addr, x ≠ .pf code addr) → c = s.cr2) := by
  cases x with
  | pf code addr => exact ⟨addr, rfl, fun _ _ h => by cases h; rfl, fun h => absurd rfl (h code addr)⟩
  | _ => exact ⟨s.cr2, rfl, fun _ _ h => Exc.noConfusion h, fun _ => rfl⟩

/-- Settles O41: the exception by its source, and the state after it by `recordFault`. -/
theorem faultsArePrecise : Obligations.FaultsArePrecise := by
  intro i s x pc h
  obtain ⟨c, hc⟩ := s.recordFault_eq x pc
  have hstate : afterStep s (exec i s) = s.recordFault (.exception x pc) := by rw [h, afterStep]
  rw [hstate]
  refine ⟨?_, ?_, c, hc⟩ <;> obtain hgate | ⟨-, hload⟩ := exec_eq_fault.1 h
  · obtain hx | hx := State.gate_eq_fault hgate <;> exact (Fault.exception.inj hx).2
  · obtain ⟨m, y, -, -, hy⟩ := State.loadSrc2_eq_fault hload
    exact (Fault.exception.inj hy).2
  · obtain hx | hx := State.gate_eq_fault hgate
    · exact .inl (Fault.exception.inj hx).1
    · exact .inr (.inl (Fault.exception.inj hx).1)
  · obtain ⟨m, y, hm, hfault, hy⟩ := State.loadSrc2_eq_fault hload
    obtain ⟨rfl, -⟩ := Fault.exception.inj hy
    refine .inr (.inr ⟨⟨m, hm⟩, ?_⟩)
    obtain hx | hx | hx | ⟨p, u, r, up, addr, hx⟩ := s.operandFault_cases hfault
    · exact .inl hx
    · exact .inr (.inl hx)
    · exact .inr (.inr (.inl hx))
    · obtain ⟨-, h1, -, -, h4, -⟩ := pfCode_bits .read p u r up
      exact .inr (.inr (.inr ⟨_, addr, hx, h1, h4⟩))

/-- A clear operand in plain memory is read (R66). -/
theorem loadSrc2_of_clear {i : Instr} {s : State} {m : MemRef} (hm : (operandsOf i).src2 = .mem m)
    (hclear : OperandClear s i m) (hplain : s.plainBytes (s.readAddr i m) (readSize i) = true) :
    ∃ bs d, s.readBytes (readSize i) (s.readAddr i m) s.draws = some (bs, d) ∧
      s.loadSrc2 i.form i.bcast (operandsOf i) =
        .ok ⟨operandValue i.form i.bcast bs, [⟨s.readAddr i m, bs⟩], d⟩ := by
  rw [← s.readBytes_isSome _ _ s.draws] at hplain
  obtain ⟨⟨bs, d⟩, hread⟩ := Option.isSome_iff_exists.1 hplain
  exact ⟨bs, d, hread, (State.loadSrc2_mem_ok _ _ _ _ hm _).2 ⟨hclear.operandFault _, bs, d, hread, rfl⟩⟩

/-- Settles O38: with the checks passed and the second source read, the next pc is all that is left to refuse. -/
theorem nextPcOutOfRangeRefused : Obligations.NextPcOutOfRangeRefused := by
  intro i s hr hl hsrc hn
  have hload : ∃ l, s.loadSrc2 i.form i.bcast (operandsOf i) = .ok l := by
    obtain ⟨n, hreg⟩ | ⟨m, hm, hclear, hplain⟩ := hsrc
    · exact ⟨_, State.loadSrc2_reg _ _ _ _ hreg⟩
    · obtain ⟨bs, d, -, hok⟩ := loadSrc2_of_clear hm hclear hplain
      exact ⟨_, hok⟩
  have hpc : s.nextPcOk (operandsOf i).len = false := by
    rw [operandsOf_len]
    exact (canonical_eq_false _ _).2 hn
  rw [exec_eq_runForm, State.runForm_eq_refused]
  exact .inr (.inr ⟨(s.gate_eq_none _ _).2 ⟨hr, hl⟩, hload, hpc, rfl⟩)

end Sys2Proof.Machine
end

section
/-! What a completed instruction writes, element by element (R131, R140, R150), whatever its second source is. -/

namespace Sys2Proof.Machine

/-- A runnable instruction whose second source is read completes, with the form's combination in its destination. -/
theorem exec_completes {i : Instr} {s : State} {l : Loaded} (hrun : Runnable s i)
    (hl : s.loadSrc2 i.form i.bcast (operandsOf i) = .ok l) :
    ∃ t, exec i s = .next t ∧ t.pc.toNat = s.pc.toNat + i.len ∧ UnchangedBut (operandsOf i).dest s t ∧
      t.reads = s.reads ++ l.events ∧ t.draws = l.draws ∧
      t.zreg (operandsOf i).dest =
        combineOf s i (s.zreg (operandsOf i).dest) (s.zreg (operandsOf i).src1) l.value := by
  have h := exec_eq_next.2 ⟨hrun, l, hl, rfl⟩
  refine ⟨_, h, exec_next_pc h, exec_next_unchangedBut h, rfl, rfl, ?_⟩
  rw [State.completed_zreg, if_pos rfl]

theorem form_kl_of_sse {i : Instr} (hi : i.form = .sse) : i.form.kl = 4 := by
  rw [hi]
  rfl

/-- The elements form 1 writes, `y` being the second source's (R131). -/
theorem lane_combineOf_sse {i : Instr} (hi : i.form = .sse) (s : State) (old a : VReg) {b : VReg} {j : Nat} {y : Lane}
    (hb : j < i.form.kl → lane b j = y) :
    lane (combineOf s i old a b) j = if j < 4 then lane a j ^^^ y else lane old j := by
  cases i with
  | xorps e =>
    rw [combineOf, show (128 : Nat) = 32 * 4 from rfl, lane_setLow, lane_xor]
    split
    · rw [hb (by rw [form_kl_of_sse hi]; assumption)]
    · rfl
  | _ => cases hi

/-- The elements the VEX forms write, `y` being the second source's (R140, R141). -/
theorem lane_combineOf_vex {i : Instr} (hi : isVex i = true) (s : State) (old a : VReg) {b : VReg} {j : Nat} {y : Lane}
    (hb : j < i.form.kl → lane b j = y) :
    lane (combineOf s i old a b) j = if j < i.form.kl then lane a j ^^^ y else 0 := by
  rw [combineOf_vex hi, lane_vexXor]
  split
  · rw [hb ‹_›]
  · rfl

/-- Element `j` of an EVEX form's destination as R155 has it: `x` where it is selected, else zero or the old element, and zero
at KL and above. -/
def EvexElement (s : State) (i : Instr) (e : Evex) (j : Nat) (old x new : Lane) : Prop :=
  (j < i.form.kl → selected s e j → new = x) ∧ (j < i.form.kl → ¬ selected s e j → new = if e.z = true then 0 else old) ∧
    (i.form.kl ≤ j → new = 0)

/-- The elements the EVEX forms write, `y` being the second source's (R150, R155). -/
theorem evexElement_combineOf {i : Instr} {e : Evex} (he : evexOf i = some e) (s : State) (old a : VReg) {b : VReg}
    {j : Nat} {y : Lane} (hb : j < i.form.kl → lane b j = y) :
    EvexElement s i e j (lane old j) (lane a j ^^^ y) (lane (combineOf s i old a b) j) := by
  rw [combineOf_evex he, lane_evexXor]
  refine ⟨fun hj hsel => ?_, fun hj hsel => ?_, fun hj => if_neg (Nat.not_lt.2 hj)⟩
  · rw [if_pos hj, if_pos ((active_iff s e j).2 hsel), hb hj]
  · rw [if_pos hj, if_neg (mt (active_iff s e j).1 hsel)]

/-- Form 1 takes its destination as the first source (R83). -/
theorem src1_eq_dest_of_sse {i : Instr} (hi : i.form = .sse) : (operandsOf i).src1 = (operandsOf i).dest := by
  cases i with
  | xorps e => rfl
  | _ => cases hi

end Sys2Proof.Machine
end

section
/-! The results of the forms (R131, R140, R150) by their second source: a register, a memory operand of the launch's own, and any
declared memory. -/

namespace Sys2Proof.Machine

/-! ## A register second source: its low VL bits, and no read -/

/-- With a register second source a runnable instruction completes; `v` is the register's value, as far as VL. -/
theorem exec_completes_reg {i : Instr} {s : State} {n : BitVec 5} (hn : (operandsOf i).src2 = .reg n)
    (hrun : Runnable s i) :
    ∃ t v, exec i s = .next t ∧ CompletesWith i s t [] ∧ (∀ j, j < i.form.kl → lane v j = lane (s.zreg n) j) ∧
      t.zreg (operandsOf i).dest = combineOf s i (s.zreg (operandsOf i).dest) (s.zreg (operandsOf i).src1) v := by
  obtain ⟨t, hexec, hpc, hrest, hreads, hdraws, hdest⟩ := exec_completes hrun (State.loadSrc2_reg _ _ _ _ hn)
  refine ⟨t, _, hexec, ⟨hpc, hrest, hreads, hdraws⟩, fun j hj => ?_, hdest⟩
  rw [form_vl_eq, lane_low, if_pos hj]

/-- Settles O30: form 1 reads the register and combines its four low elements. -/
theorem xorpsRegisterResult : Obligations.XorpsRegisterResult := by
  intro e s n hn hrun
  obtain ⟨t, v, hexec, hcomp, hv, hdest⟩ := exec_completes_reg (i := .xorps e) hn hrun
  refine ⟨t, hexec, hcomp, fun j _ => ?_⟩
  exact (congrArg (lane · j) hdest).trans (lane_combineOf_sse rfl s _ _ (hv j))

/-- Settles O32: the VEX forms read the register and combine KL elements. -/
theorem vexRegisterResult : Obligations.VexRegisterResult := by
  intro i s n hi hn hrun
  obtain ⟨t, v, hexec, hcomp, hv, hdest⟩ := exec_completes_reg hn hrun
  refine ⟨t, hexec, hcomp, fun j _ => ?_⟩
  rw [hdest, lane_combineOf_vex hi s _ _ (hv j)]

/-- Settles O34: the EVEX forms read the register and combine the selected elements. -/
theorem evexRegisterResult : Obligations.EvexRegisterResult := by
  intro i e s n he hn hrun
  obtain ⟨t, v, hexec, hcomp, hv, hdest⟩ := exec_completes_reg hn hrun
  refine ⟨t, hexec, hcomp, fun j _ => ?_⟩
  rw [hdest]
  exact evexElement_combineOf he s _ _ (hv j)

/-! ## A memory operand of the launch's own: its bytes, and one read -/

/-- The size of a memory operand by elements (R50, R51). -/
theorem readSize_eq (i : Instr) : readSize i = if i.bcast then 4 else 4 * i.form.kl := by
  unfold readSize operandSize
  split
  · rfl
  · cases i.form <;> rfl

/-- Where element `j` of the second source stands in a memory operand: at its start under EVEX.b (R54, R156). -/
def elementOffset (i : Instr) (j : Nat) : Nat := if i.bcast then 0 else 4 * j

/-- The element of the operand's bytes, where those are the memory's. -/
theorem elementOf_readOf (i : Instr) (m : List Host.Cell) (a : Nat) {j : Nat} (hj : j < i.form.kl) :
    elementOf i (readOf m a (readSize i)).bytes j = laneAt m (a + elementOffset i j) := by
  have h16 := form_kl_le i.form
  have hsize := readSize_eq i
  obtain ⟨k, hk, hfits, hk16⟩ : ∃ k, elementOffset i j = 4 * k ∧ 4 * k + 4 ≤ readSize i ∧ k < 16 := by
    unfold elementOffset
    cases hb : i.bcast <;> simp only [hb] at hsize
    · exact ⟨j, rfl, by simp at hsize; omega, by omega⟩
    · exact ⟨0, rfl, by simp at hsize; omega, by omega⟩
  rw [hk, ← lane_ofNat_leNat m a (readSize i) k hfits hk16, lane_leNat _ _ hk16, ← hk]
  rfl

/-- With an operand in the launch's own memory a runnable instruction completes; `v` is the value of the operand's bytes. -/
theorem exec_completes_own {i : Instr} {s : State} {m : MemRef} (hm : (operandsOf i).src2 = .mem m) (hrun : Runnable s i)
    (hclear : OperandClear s i m) (hown : s.ownBytes (s.readAddr i m) (readSize i) = true) :
    ∃ t v, exec i s = .next t ∧ CompletesWith i s t [readOf s.mem (s.readAddr i m) (readSize i)] ∧
      (∀ j, j < i.form.kl → lane v j = laneAt s.mem (s.readAddr i m + elementOffset i j)) ∧
      t.zreg (operandsOf i).dest = combineOf s i (s.zreg (operandsOf i).dest) (s.zreg (operandsOf i).src1) v := by
  have hl := (State.loadSrc2_mem_ok s i.form i.bcast _ hm _).2
    ⟨hclear.operandFault _, _, _, s.readBytes_own (readSize i) (s.readAddr i m) s.draws hown, rfl⟩
  obtain ⟨t, hexec, hpc, hrest, hreads, hdraws, hdest⟩ := exec_completes hrun hl
  refine ⟨t, _, hexec, ⟨hpc, hrest, hreads, hdraws⟩, fun j hj => ?_, hdest⟩
  rw [lane_operandValue i _ hj]
  exact elementOf_readOf i s.mem (s.readAddr i m) hj

/-- A full-width operand (R50, R54). -/
theorem readSize_of_full {i : Instr} (h : i.bcast = false) : readSize i = 4 * i.form.kl := by simp [readSize_eq, h]

theorem elementOffset_of_full {i : Instr} (h : i.bcast = false) (j : Nat) : elementOffset i j = 4 * j := by
  simp [elementOffset, h]

theorem bcast_of_isVex {i : Instr} (h : isVex i = true) : i.bcast = false := by
  cases i <;> cases h <;> rfl

theorem bcast_of_evexOf {i : Instr} {e : Evex} (h : evexOf i = some e) : i.bcast = e.bc := by
  cases i <;> cases h <;> rfl

/-- Settles O31: form 1 reads sixteen bytes and combines their four elements. -/
theorem xorpsMemoryResult : Obligations.XorpsMemoryResult := by
  intro e s m hm hrun hclear hown
  have hsize : readSize (.xorps e) = 16 := by
    rw [readSize_of_full rfl, form_kl_of_sse rfl]
  rw [← hsize] at hown ⊢
  obtain ⟨t, v, hexec, hcomp, hv, hdest⟩ := exec_completes_own (i := .xorps e) hm hrun hclear hown
  refine ⟨t, hexec, hcomp, fun j _ => ?_⟩
  exact (congrArg (lane · j) hdest).trans (lane_combineOf_sse rfl s _ _ (hv j))

/-- Settles O33: the VEX forms read KL elements and combine them. -/
theorem vexMemoryResult : Obligations.VexMemoryResult := by
  intro i s m hi hm hrun hclear hown
  have hb := bcast_of_isVex hi
  rw [← readSize_of_full hb] at hown ⊢
  obtain ⟨t, v, hexec, hcomp, hv, hdest⟩ := exec_completes_own hm hrun hclear hown
  refine ⟨t, hexec, hcomp, fun j _ => ?_⟩
  rw [hdest, lane_combineOf_vex hi s _ _ (hv j), elementOffset_of_full hb]

/-- Settles O35: the EVEX forms with EVEX.b = 0 read KL elements and combine the selected ones. -/
theorem evexMemoryResult : Obligations.EvexMemoryResult := by
  intro i e s m he hbc hm hrun hclear hown
  have hb : i.bcast = false := (bcast_of_evexOf he).trans hbc
  rw [← readSize_of_full hb] at hown ⊢
  obtain ⟨t, v, hexec, hcomp, hv, hdest⟩ := exec_completes_own hm hrun hclear hown
  refine ⟨t, hexec, hcomp, fun j _ => ?_⟩
  rw [hdest, ← elementOffset_of_full hb]
  exact evexElement_combineOf he s _ _ (hv j)

/-- Settles O36: the EVEX forms with EVEX.b = 1 read one element and combine the selected ones with it. -/
theorem evexBroadcastResult : Obligations.EvexBroadcastResult := by
  intro i e s m he hbc hm hrun hclear hown
  have hb : i.bcast = true := (bcast_of_evexOf he).trans hbc
  have hsize : readSize i = 4 := by simp [readSize_eq, hb]
  rw [← hsize] at hown ⊢
  obtain ⟨t, v, hexec, hcomp, hv, hdest⟩ := exec_completes_own hm hrun hclear hown
  refine ⟨t, hexec, hcomp, fun j _ => ?_⟩
  have hoff : elementOffset i j = 0 := by simp [elementOffset, hb]
  rw [hdest]
  exact evexElement_combineOf he s _ _ (fun hj => by rw [hv j hj, hoff, Nat.add_zero])

/-! ## Any declared memory: the bytes of the read event -/

/-- Settles O37: the three classes' elements, from the bytes that the one read was answered with. -/
theorem plainMemoryOperandCompletes : Obligations.PlainMemoryOperandCompletes := by
  intro i s m hm hrun hclear hplain
  obtain ⟨bs, d, hread, hl⟩ := loadSrc2_of_clear hm hclear hplain
  obtain ⟨t, hexec, hpc, hrest, hreads, -, hdest⟩ := exec_completes hrun hl
  have hv : ∀ j, j < i.form.kl → lane (operandValue i.form i.bcast bs) j = elementOf i bs j :=
    fun j hj => lane_operandValue i bs hj
  refine ⟨t, bs, hexec, hpc, hrest, hreads, s.readBytes_length hread,
    fun j hj => s.readBytes_own_byte hread hj, fun j _ => ?_⟩
  rw [hdest]
  refine ⟨fun hi => ?_, fun hi => lane_combineOf_vex hi s _ _ (hv j), fun e he => evexElement_combineOf he s _ _ (hv j)⟩
  rw [lane_combineOf_sse hi s _ _ (hv j), src1_eq_dest_of_sse hi]

end Sys2Proof.Machine
end

section
/-! What does not enter an outcome: MXCSR, EFLAGS but for AC, and the opmask bits no element is selected by (R24, R25, R28, R29). -/

namespace Sys2Proof.Machine

/-- A state with other opmask registers, flags and MXCSR. -/
def State.mapUnread (fk : Vector (BitVec 64) 8 → Vector (BitVec 64) 8) (ff fm : BitVec 32 → BitVec 32) (s : State) : State :=
  { s with k := fk s.k, eflags := ff s.eflags, mxcsr := fm s.mxcsr }

section
variable (fk : Vector (BitVec 64) 8 → Vector (BitVec 64) 8) (ff fm : BitVec 32 → BitVec 32) (s : State)

theorem State.readBytes_mapUnread (n a d : Nat) :
    (s.mapUnread fk ff fm).readBytes n a d = s.readBytes n a d := by
  induction n generalizing a d with
  | zero => rfl
  | succ n ih =>
    simp only [State.readBytes, ih]
    rfl

/-- The checks before the reads look at no flag and no opmask register (R173 to R176). -/
theorem State.gate_mapUnread (f : Form) (illegal : Bool) :
    (s.mapUnread fk ff fm).gate f illegal = s.gate f illegal := rfl

/-- Of the flags the second source depends on EFLAGS.AC alone (R28, R180). -/
theorem State.loadSrc2_mapUnread {ff : BitVec 32 → BitVec 32} (hac : (ff s.eflags).getLsbD 18 = s.eflags.getLsbD 18)
    (f : Form) (bcast : Bool) (o : Operands) :
    (s.mapUnread fk ff fm).loadSrc2 f bcast o = s.loadSrc2 f bcast o := by
  have hflag : (s.mapUnread fk ff fm).acFlag = s.acFlag := hac
  have hfault : ∀ g a n, (s.mapUnread fk ff fm).operandFault f g a n = s.operandFault f g a n := by
    intro g a n
    unfold State.operandFault State.acFault
    rw [hflag]
    rfl
  unfold State.loadSrc2 State.loadMem
  simp only [hfault, State.readBytes_mapUnread]
  rfl

end

/-- An EVEX form's result depends on the selection of its KL elements alone (R25, R150). -/
theorem evexXor_congr {f : Form} {act act' : Nat → Bool} (h : ∀ j < f.kl, act' j = act j) (z : Bool) :
    evexXor f act' z = evexXor f act z := by
  funext old a b
  refine eq_of_lane_eq fun j _ => ?_
  rw [lane_evexXor, lane_evexXor]
  split
  · rw [h j ‹_›]
  · rfl

/-- k0 selects nothing, and of the others the low KL bits do (R24, R25). -/
theorem State.active_congr {s t : State} {n : Nat}
    (h : ∀ m : BitVec 3, m ≠ 0 → ∀ j < n, (t.kreg m).getLsbD j = (s.kreg m).getLsbD j) (aaa : BitVec 3) :
    ∀ j < n, t.active aaa j = s.active aaa j := by
  intro j hj
  unfold State.active
  by_cases h0 : aaa = 0
  · simp [h0]
  · rw [h aaa h0 j hj]

theorem combineOf_congr {i : Instr} {s t : State}
    (h : ∀ m : BitVec 3, m ≠ 0 → ∀ j < i.form.kl, (t.kreg m).getLsbD j = (s.kreg m).getLsbD j) :
    combineOf t i = combineOf s i := by
  cases i with
  | vxorpsEvex128 e | vxorpsEvex256 e | vxorpsEvex512 e => exact evexXor_congr (State.active_congr h e.aaa) e.z
  | _ => rfl

/-- Opmask bits that select no element, MXCSR and every flag but EFLAGS.AC pass through an instruction unread. -/
theorem exec_mapUnread {i : Instr} {s : State} {fk : Vector (BitVec 64) 8 → Vector (BitVec 64) 8}
    {ff fm : BitVec 32 → BitVec 32} (hac : (ff s.eflags).getLsbD 18 = s.eflags.getLsbD 18)
    (hk : ∀ m : BitVec 3, m ≠ 0 → ∀ j < i.form.kl,
      ((s.mapUnread fk ff fm).kreg m).getLsbD j = (s.kreg m).getLsbD j) :
    exec i (s.mapUnread fk ff fm) = mapNext (State.mapUnread fk ff fm) (exec i s) := by
  rw [exec_eq_runForm, exec_eq_runForm, combineOf_congr hk]
  unfold State.runForm
  rw [State.gate_mapUnread, State.loadSrc2_mapUnread _ _ _ hac]
  cases s.gate i.form (illegalOf i) with
  | some stop => cases stop <;> rfl
  | none =>
    cases s.loadSrc2 i.form i.bcast (operandsOf i) with
    | error stop => cases stop <;> rfl
    | ok l =>
      simp only [State.advance]
      change (if s.nextPcOk (operandsOf i).len = true then _ else _) =
        mapNext _ (if s.nextPcOk (operandsOf i).len = true then _ else _)
      split <;> rfl

/-- Settles O43: the opmask registers stay, and the new flags keep EFLAGS.AC. -/
theorem statusRegistersDoNotMatter : Obligations.StatusRegistersDoNotMatter := fun _ s fl mx hac =>
  exec_mapUnread (s := s) (fk := id) (ff := fun _ => fl) (fm := fun _ => mx) hac fun _ _ _ _ => rfl

/-- Settles O44: the flags and MXCSR stay, and the new opmask registers keep the bits that select. -/
theorem unreadOpmaskBitsDoNotMatter : Obligations.UnreadOpmaskBitsDoNotMatter := fun _ s ks hk =>
  exec_mapUnread (s := s) (fk := fun _ => ks) (ff := id) (fm := id) rfl hk

end Sys2Proof.Machine
end

section
/-! Two algebraic laws of the register results: equal sources give zero, and applying a source twice restores (R132). -/

namespace Sys2Proof.Machine

/-- What a completed instruction with a register second source wrote. -/
theorem exec_next_zreg_of_reg {i : Instr} {s t : State} {n : BitVec 5} (hn : (operandsOf i).src2 = .reg n)
    (h : exec i s = .next t) :
    ∃ v, (∀ j, j < i.form.kl → lane v j = lane (s.zreg n) j) ∧
      t.zreg (operandsOf i).dest = combineOf s i (s.zreg (operandsOf i).dest) (s.zreg (operandsOf i).src1) v := by
  obtain ⟨hrun, -⟩ := exec_eq_next.1 h
  obtain ⟨t', v, ht', -, hv, hdest⟩ := exec_completes_reg hn hrun
  obtain rfl : t = t' := by
    rw [h] at ht'
    exact Host.Outcome.next.inj ht'
  exact ⟨v, hv, hdest⟩

theorem lane_zero (j : Nat) : lane 0 j = 0 := by simp [lane]

/-- Settles O45: every element that is combined is XORed with itself. -/
theorem sameSourcesGiveZero : Obligations.SameSourcesGiveZero := by
  intro i s t hsrc h
  obtain ⟨v, hv, hdest⟩ := exec_next_zreg_of_reg hsrc h
  rw [hdest]
  refine ⟨fun hi j _ => ?_, fun hi => eq_of_lane_eq fun j _ => ?_, fun e he j _ hj hsel => ?_⟩
  · rw [lane_combineOf_sse hi s _ _ (hv j), BitVec.xor_self]
    rfl
  · rw [lane_combineOf_vex hi s _ _ (hv j), BitVec.xor_self, lane_zero]
    exact ite_self _
  · rw [(evexElement_combineOf he s _ _ (hv j)).1 hj hsel, BitVec.xor_self]
    rfl

/-- The three classes (R80). -/
theorem form_cases (i : Instr) : i.form = .sse ∨ isVex i = true ∨ ∃ e, evexOf i = some e := by
  cases i with
  | xorps e => exact .inl rfl
  | vxorpsVex128C5 e | vxorpsVex128C4 e | vxorpsVex256C5 e | vxorpsVex256C4 e => exact .inr (.inl rfl)
  | vxorpsEvex128 e | vxorpsEvex256 e | vxorpsEvex512 e => exact .inr (.inr ⟨e, rfl⟩)

/-- Below KL an unmasked instruction of any class writes the XOR of its sources' elements. -/
theorem lane_combineOf_unmasked {i : Instr} (hmask : ∀ e, evexOf i = some e → e.aaa = 0) (s : State) (old a : VReg)
    {b : VReg} {j : Nat} (hj : j < i.form.kl) : lane (combineOf s i old a b) j = lane a j ^^^ lane b j := by
  obtain hi | hi | ⟨e, he⟩ := form_cases i
  · rw [lane_combineOf_sse hi s old a (fun _ => rfl), if_pos (form_kl_of_sse hi ▸ hj)]
  · rw [lane_combineOf_vex hi s old a (fun _ => rfl), if_pos hj]
  · exact (evexElement_combineOf he s old a (fun _ => rfl)).1 hj (.inl (hmask e he))

theorem exec_next_lane_unmasked {i : Instr} {s t : State} {n : BitVec 5} (hn : (operandsOf i).src2 = .reg n)
    (hmask : ∀ e, evexOf i = some e → e.aaa = 0) (h : exec i s = .next t) {j : Nat} (hj : j < i.form.kl) :
    lane (t.zreg (operandsOf i).dest) j = lane (s.zreg (operandsOf i).src1) j ^^^ lane (s.zreg n) j := by
  obtain ⟨v, hv, hdest⟩ := exec_next_zreg_of_reg hn h
  rw [hdest, lane_combineOf_unmasked hmask s _ _ hj, hv j hj]

/-- Settles O46: the second step XORs the first one's result with the same, unchanged source. -/
theorem applyingTwiceRestores : Obligations.ApplyingTwiceRestores := by
  intro i s t u n hn hsrc hne hmask hst htu j hj
  have hkeep : t.zreg n = s.zreg n := (exec_next_unchangedBut hst).zmm n hne
  calc lane (u.zreg (operandsOf i).dest) j
      = lane (t.zreg (operandsOf i).dest) j ^^^ lane (s.zreg n) j := by
        rw [exec_next_lane_unmasked hn hmask htu hj, hsrc, hkeep]
    _ = lane (s.zreg (operandsOf i).dest) j ^^^ lane (s.zreg n) j ^^^ lane (s.zreg n) j := by
        rw [exec_next_lane_unmasked hn hmask hst hj, hsrc]
    _ = lane (s.zreg (operandsOf i).dest) j := by
        rw [BitVec.xor_assoc, BitVec.xor_self, BitVec.xor_zero]

end Sys2Proof.Machine
end

section
/-! The state after reset (R6, R35). -/

namespace Sys2Proof.Machine

theorem State.resetOf_zreg (c : Config) (n : BitVec 5) : (State.resetOf c).zreg n = 0 := by
  simp [State.zreg, State.resetOf]

theorem State.resetOf_kreg (c : Config) (n : BitVec 3) : (State.resetOf c).kreg n = 0 := by
  simp [State.kreg, State.resetOf]

theorem State.resetOf_xreg (c : Config) (n : BitVec 4) :
    (State.resetOf c).xreg n = if n = 2 then c.signature else 0 := by
  have hn : 2 = n.toNat ↔ n = 2 := by
    rw [← BitVec.toNat_inj]
    exact eq_comm
  simp [State.xreg, State.resetOf, Vector.getElem_set, hn]

/-- No form is enabled: CR4 is zero (R30, R35). -/
theorem State.resetOf_enabled (c : Config) (f : Form) : (State.resetOf c).enabled f = false := by
  have hcr4 : (State.resetOf c).osfxsr = false ∧ (State.resetOf c).osxsave = false := by
    simp [State.osfxsr, State.osxsave, State.resetOf]
  cases f <;> simp [State.enabled, State.usable, hcr4]

theorem canonical_reset_pc (va : VaWidth) : canonical va.bits 0xFFF0 = true := by
  cases va <;> simp [canonical, VaWidth.bits]

/-- Settles O47: the registers by the lemmas above, the other fields as `resetOf` lists them. -/
theorem resetValues : Obligations.ResetValues := fun c =>
  ⟨rfl, rfl, rfl, State.resetOf_zreg c, State.resetOf_kreg c, State.resetOf_xreg c, rfl, rfl, rfl, rfl, rfl,
    State.resetOf_enabled c⟩

/-- Settles O48: at reset every register is zero and memory is empty. -/
theorem resetMeetsInvariant : Obligations.ResetMeetsInvariant := fun c hv =>
  { config := hv
    widths := fun n => by rw [State.resetOf_zreg]; exact BitVec.zero_ushiftRight
    count := fun n _ => State.resetOf_zreg c n
    opmasks := fun n => by rw [State.resetOf_kreg]; exact BitVec.zero_ushiftRight
    nextPc := canonical_reset_pc c.va
    memory := rfl }

end Sys2Proof.Machine
end
